-- ==== Sys2Proof/Word.lean ====
section
/-! DEFINITION. The bit-vector types of the block (00_scope.md R9: every value is an unsigned number of a fixed width). -/

namespace Sys2Proof

/-- `UInt8`: one byte of the stream, or a byte operand. -/
abbrev Byte := BitVec 8

/-- `UInt24`: a CRC-24Q value (R8, CRC_WIDTH). -/
abbrev Crc := BitVec 24

/-- `UInt32`: a bus word, a command word, a counter (R8). Arithmetic on it is modulo 2^32 (R9). -/
abbrev Word := BitVec 32

end Sys2Proof
end

