-- ==== Sys2Proof/Config.lean ====
section
/-! DEFINITION. The parameters that fix one instance of the block (00_scope.md section 4). They are configuration, not state
(R20): a step never changes them, and every statement ranges over all of them (log 1). -/

namespace Sys2Proof

/-- CRC_WIRE_ORDER (R7): which of the three transmitted CRC bytes carries the top of the CRC. -/
inductive WireOrder where
  | msbFirst
  | lsbFirst
  deriving DecidableEq, Repr

/-- The parameters of one instance. -/
structure Params where
  /-- INBUF_CAP, the capacity of the input buffer in bytes (R6, OPEN). -/
  inbufCap : Nat
  /-- CRC_WIRE_ORDER (R7). -/
  wireOrder : WireOrder
  /-- BASE_ADDR, the platform's base address of the register aperture (R31, OPEN; any value, log 2). -/
  baseAddr : Nat
  deriving DecidableEq, Repr

/-- The instance that 95_test_vectors.md starts from: INBUF_CAP = 1029 and CRC_WIRE_ORDER = MSB_FIRST, the spec's default (R7).
DESIGN CHOICE (logs 1 and 2): only `State.reset` takes this instance, with BASE_ADDR 0. -/
def Params.reference : Params := { inbufCap := 1029, wireOrder := .msbFirst, baseAddr := 0 }

end Sys2Proof
end

