-- ==== Sys2Proof/Syntax.lean ====
section
/-! DEFINITION. The host commands, one constructor per row of opcode_table.json (30_encoding.md R81). -/

namespace Sys2Proof

/-- A decoded command. Every operand is an unsigned byte taken as it stands (R80), so its type is its only constraint. -/
inductive Instr where
  /-- NOP (R170). -/
  | nop
  /-- PUSH b (R120). -/
  | push (b : Byte)
  /-- SCAN (R121). -/
  | scan
  /-- POP (R132). -/
  | pop
  /-- CRC_INIT (R105). -/
  | crcInit
  /-- CRC_UPDATE b (R106). -/
  | crcUpdate (b : Byte)
  /-- CRC_CHECK t0 t1 t2, the three bytes in transmission order (R107). -/
  | crcCheck (t0 t1 t2 : Byte)
  /-- CLEAR_ERR (R171). -/
  | clearErr
  /-- FLUSH (R133). -/
  | flush
  /-- SOFT_RESET (R172). -/
  | softReset
  deriving DecidableEq, Repr

end Sys2Proof
end

