-- ==== Sys2Proof/WellFormed.lean ====
section
/-! DEFINITION. Well-formedness. A command's operands are bytes by type (R80), so every `Instr` term is well formed; what can be
ill formed is an instance's parameters (R6) and the operands a host program writes as numbers (R92). -/

namespace Sys2Proof

/-- The bounds of R6 on INBUF_CAP: 1029 <= INBUF_CAP <= 65535. -/
def Params.wf (p : Params) : Bool := decide (1029 ≤ p.inbufCap) && decide (p.inbufCap ≤ 65535)

/-- A byte operand of a host program line is 0 to 255 (R92). -/
def byteOperandWf (n : Nat) : Bool := decide (n < 256)

/-- A raw word or a form T operand of a host program line has at most `bits` bits (R92, R93). -/
def wordOperandWf (bits n : Nat) : Bool := decide (n < 2 ^ bits)

/-- An index of FRAME_WIN is 0 to 1028 (R41). -/
def windowIndexWf (i : Nat) : Bool := decide (i ≤ 1028)

end Sys2Proof
end

