-- ==== Sys2Proof/Decode.lean ====
section
/-! DEFINITION. Decoding and encoding of command words (30_encoding.md R80 to R83) and the opcode table. -/

namespace Sys2Proof

/-- Why a word is ILLEGAL (R83). The effect is the same for both (R173). -/
inductive IllegalReason where
  /-- OP is 0x9 to 0xE. -/
  | reservedOp
  /-- A must-be-zero bit of the command's operand form is 1. -/
  | mustBeZero
  deriving DecidableEq, Repr

/-- What a command word decodes to: exactly one command, or ILLEGAL (R82). -/
inductive Decoded where
  | command (i : Instr)
  | illegal (r : IllegalReason)
  deriving DecidableEq, Repr

/-- Form N: ARG and RZ are 0 (R80). -/
def decodeFormN (w : Word) (i : Instr) : Decoded :=
  if w.extractLsb' 0 28 = 0 then .command i else .illegal .mustBeZero

/-- Form B: w[27:8] is 0 and w[7:0] is the byte (R80). -/
def decodeFormB (w : Word) (f : Byte → Instr) : Decoded :=
  if w.extractLsb' 8 20 = 0 then .command (f (w.extractLsb' 0 8)) else .illegal .mustBeZero

/-- Form T: w[27:24] is 0 and ARG is three bytes side by side, T0 in the top one (R80). -/
def decodeFormT (w : Word) (f : Byte → Byte → Byte → Instr) : Decoded :=
  if w.extractLsb' 24 4 = 0 then
    .command (f (w.extractLsb' 16 8) (w.extractLsb' 8 8) (w.extractLsb' 0 8))
  else .illegal .mustBeZero

/-- `decode` of R82, total on every 32-bit word. -/
def decode (w : Word) : Decoded :=
  match (w.extractLsb' 28 4).toNat with
  | 0x0 => decodeFormN w .nop
  | 0x1 => decodeFormB w .push
  | 0x2 => decodeFormN w .scan
  | 0x3 => decodeFormN w .pop
  | 0x4 => decodeFormN w .crcInit
  | 0x5 => decodeFormB w .crcUpdate
  | 0x6 => decodeFormT w .crcCheck
  | 0x7 => decodeFormN w .clearErr
  | 0x8 => decodeFormN w .flush
  | 0xF => decodeFormN w .softReset
  | _ => .illegal .reservedOp

/-- The word of a form N command. -/
def encodeFormN (op : BitVec 4) : Word := op ++ (0 : BitVec 28)

/-- The word of a form B command. -/
def encodeFormB (op : BitVec 4) (b : Byte) : Word := op ++ (0 : BitVec 20) ++ b

/-- The word of a form T command. -/
def encodeFormT (op : BitVec 4) (t0 t1 t2 : Byte) : Word := op ++ (0 : BitVec 4) ++ t0 ++ t1 ++ t2

/-- The command word of a command (R80, R81). -/
def encode : Instr → Word
  | .nop => encodeFormN 0x0
  | .push b => encodeFormB 0x1 b
  | .scan => encodeFormN 0x2
  | .pop => encodeFormN 0x3
  | .crcInit => encodeFormN 0x4
  | .crcUpdate b => encodeFormB 0x5 b
  | .crcCheck t0 t1 t2 => encodeFormT 0x6 t0 t1 t2
  | .clearErr => encodeFormN 0x7
  | .flush => encodeFormN 0x8
  | .softReset => encodeFormN 0xF

/-- A row of the match/mask table of R82 (opcode_table.json). -/
structure OpcodeRow where
  mnemonic : String
  matchWord : Word
  maskWord : Word
  deriving DecidableEq, Repr

/-- The word has the row's fixed bits. -/
def OpcodeRow.fits (r : OpcodeRow) (w : Word) : Bool := w &&& r.maskWord == r.matchWord

/-- The row of a command. -/
def rowOf : Instr → OpcodeRow
  | .nop => ⟨"NOP", 0x00000000, 0xFFFFFFFF⟩
  | .push _ => ⟨"PUSH", 0x10000000, 0xFFFFFF00⟩
  | .scan => ⟨"SCAN", 0x20000000, 0xFFFFFFFF⟩
  | .pop => ⟨"POP", 0x30000000, 0xFFFFFFFF⟩
  | .crcInit => ⟨"CRC_INIT", 0x40000000, 0xFFFFFFFF⟩
  | .crcUpdate _ => ⟨"CRC_UPDATE", 0x50000000, 0xFFFFFF00⟩
  | .crcCheck _ _ _ => ⟨"CRC_CHECK", 0x60000000, 0xFF000000⟩
  | .clearErr => ⟨"CLEAR_ERR", 0x70000000, 0xFFFFFFFF⟩
  | .flush => ⟨"FLUSH", 0x80000000, 0xFFFFFFFF⟩
  | .softReset => ⟨"SOFT_RESET", 0xF0000000, 0xFFFFFFFF⟩

/-- The ten rows of R82, in the table's order. -/
def opcodeTable : List OpcodeRow :=
  [rowOf .nop, rowOf (.push 0), rowOf .scan, rowOf .pop, rowOf .crcInit, rowOf (.crcUpdate 0),
   rowOf (.crcCheck 0 0 0), rowOf .clearErr, rowOf .flush, rowOf .softReset]

/-- The command that the decoder reads from a word of `nbits` bits numbered as opcode_table.json numbers them; the bits above
`nbits` are 0. A command word has 32 bits (R80). -/
def decodeTableWord (nbits w : Nat) : Option Instr :=
  if nbits ≤ 32 then
    match decode (BitVec.ofNat 32 (w % 2 ^ nbits)) with
    | .command i => some i
    | .illegal _ => none
  else none

end Sys2Proof
end

