-- ==== Sys2Proof/Machine/Constants.lean ====
section
/-! DEFINITION. The fixed constants of the block (00_scope.md R8) and the register offsets' bounds (10_state.md R31). -/

namespace Sys2Proof.Machine

/-- PREAMBLE. -/
def preamble : Byte := 0xD3

/-- CRC_POLY, the x^24 term included. -/
def crcPoly : BitVec 25 := 0x1864CFB

/-- The 24-bit feedback mask, CRC_POLY without its x^24 term: 0x864CFB. -/
def crcFeedback : Crc := crcPoly.setWidth 24

/-- CRC_INIT_VALUE. -/
def crcInitValue : Crc := 0x000000

/-- HDR_BYTES: the preamble and the 2-byte length header. -/
def hdrBytes : Nat := 3

/-- CRC_BYTES. -/
def crcByteCount : Nat := 3

/-- MAX_LEN, the largest payload length. -/
def maxLen : Nat := 1023

/-- MAX_FRAME, the largest frame in bytes. -/
def maxFrame : Nat := hdrBytes + maxLen + crcByteCount

/-- The size of the register aperture in bytes (R31). -/
def apertureBytes : Nat := 0x4000

end Sys2Proof.Machine
end

