-- ==== Sys2Proof/Machine/Crc24q.lean ====
section
/-! DEFINITION. The CRC-24Q function (40_crc24q.md section 1). It is a pure function of its bytes and has no state (C6). -/

namespace Sys2Proof.Machine

/-- One pass of the loop of R100: shift left, and reduce when the bit shifted out is 1. -/
def crcShift (r : Crc) : Crc :=
  if r.getLsbD 23 then (r <<< 1) ^^^ crcFeedback else r <<< 1

/-- `n` passes of the loop of R100. -/
def crcShifts : Nat → Crc → Crc
  | 0, r => r
  | n + 1, r => crcShifts n (crcShift r)

/-- `crc_step` of R100: the byte enters at the top, then 8 passes. -/
def crcStep (c : Crc) (b : Byte) : Crc := crcShifts 8 (c ^^^ (b.setWidth 24 <<< 16))

/-- `crc24q` of R101. -/
def crc24q (bytes : List Byte) : Crc := bytes.foldl crcStep crcInitValue

/-- The table entry `T[i]` of R102. -/
def crcTable (i : Byte) : Crc := crcStep 0 i

/-- The table-driven form of one step (R102). -/
def crcStepTable (c : Crc) (b : Byte) : Crc := (c <<< 8) ^^^ crcTable (c.extractLsb' 16 8 ^^^ b)

/-- `crc_bytes` of R103: the three bytes of a CRC in transmission order. -/
def crcBytes (o : WireOrder) (c : Crc) : Byte × Byte × Byte :=
  match o with
  | .msbFirst => (c.extractLsb' 16 8, c.extractLsb' 8 8, c.extractLsb' 0 8)
  | .lsbFirst => (c.extractLsb' 0 8, c.extractLsb' 8 8, c.extractLsb' 16 8)

/-- The positional comparison of a CRC with three transmitted bytes (R69, R103): all three positions equal. -/
def crcMatches (o : WireOrder) (c : Crc) (t : Byte × Byte × Byte) : Bool := decide (crcBytes o c = t)

/-- `validate` of R104. -/
def validate (o : WireOrder) (bytes : List Byte) (t : Byte × Byte × Byte) : Bool := crcMatches o (crc24q bytes) t

end Sys2Proof.Machine
end

