-- ==== Sys2Proof/Machine/Operands.lean ====
section
/-! DEFINITION. The bit reader of the stream (00_scope.md R10) and the fields of a frame (30_encoding.md R86 to R91). The operand
forms of a command word are in Decode.lean, its only reader. -/

namespace Sys2Proof.Machine

/-- `s[i]` (R11). Every rule guards its reads with `i < |s|`; past the end this reads 0 (log 10). -/
def byteAt (s : List Byte) (i : Nat) : Byte := s.getD i 0

/-- Bit offset `k` of a byte sequence: bit `7 - (k mod 8)` of byte `k div 8` (R10). -/
def streamBit (s : List Byte) (k : Nat) : Bool := (byteAt s (k / 8)).getLsbD (7 - k % 8)

/-- `getbitu(s, k, n)`: the unsigned n-bit number whose most significant bit is at offset `k` (R10). -/
def getbitu (s : List Byte) (k : Nat) : Nat → Nat
  | 0 => 0
  | n + 1 => 2 * getbitu s k n + (streamBit s (k + n)).toNat

/-- LEN of the frame whose preamble is `q[0]`: `{ q[1][1:0], q[2] }` (R87). -/
def lenField (q : List Byte) : BitVec 10 := (byteAt q 1).extractLsb' 0 2 ++ byteAt q 2

/-- `L(q)`, the payload length in bytes (R22). -/
def frameLen (q : List Byte) : Nat := (lenField q).toNat

/-- RSV, the 6 reserved header bits `q[1][7:2]` (R88). -/
def rsvField (q : List Byte) : BitVec 6 := (byteAt q 1).extractLsb' 2 6

/-- The payload is long enough to hold a message type (R89): `L >= 2`. -/
def typeValid (q : List Byte) : Bool := decide (2 ≤ frameLen q)

/-- MSG_TYPE: `{ q[3], q[4][7:4] }` when `L >= 2`, else 0 (R89). -/
def msgType (q : List Byte) : BitVec 12 :=
  if typeValid q then byteAt q 3 ++ (byteAt q 4).extractLsb' 4 4 else 0

/-- The length in bytes of the frame at the head: `6 + L` (R90). -/
def frameBytes (q : List Byte) : Nat := hdrBytes + frameLen q + crcByteCount

/-- The bytes the CRC covers: `q[0 .. 3+L)`, preamble, length header and payload (R91). -/
def coveredBytes (q : List Byte) : List Byte := q.take (hdrBytes + frameLen q)

/-- The transmitted CRC bytes `(q[3+L], q[4+L], q[5+L])` (R86, R125). -/
def transmittedCrc (q : List Byte) : Byte × Byte × Byte :=
  (byteAt q (3 + frameLen q), byteAt q (4 + frameLen q), byteAt q (5 + frameLen q))

/-- The test of stage VALIDATE on the frame at the head (R126). -/
def frameValid (o : WireOrder) (q : List Byte) : Bool := validate o (coveredBytes q) (transmittedCrc q)

/-- The frame with reserved bits `rsv` and the given payload (at most 1023 bytes), its CRC in the wire order (R86, R91, R103). -/
def makeFrame (o : WireOrder) (rsv : BitVec 6) (payload : List Byte) : List Byte :=
  let len : BitVec 10 := BitVec.ofNat 10 payload.length
  let body := preamble :: (rsv ++ len.extractLsb' 8 2) :: len.extractLsb' 0 8 :: payload
  let t := crcBytes o (crc24q body)
  body ++ [t.1, t.2.1, t.2.2]

end Sys2Proof.Machine
end

