-- ==== Sys2Proof/Machine/State.lean ====
section
/-! DEFINITION. The machine's state (10_state.md), the reasons a step can stop, and reset (70_reset_and_hazards.md R230). -/

namespace Sys2Proof.Machine

/-- The scan stage at which a SCAN ran out of input (R20, R33). The type has exactly the five values that occur (log 13). -/
inductive Stage where
  | none
  | seekPreamble
  | readLength
  | readPayload
  | readCrc
  deriving DecidableEq, Repr

/-- The block state: "exactly the following record. Nothing else is state" (R20). -/
structure Block where
  /-- `q`, the input buffer, oldest byte first (R21). -/
  q : List Byte
  /-- `ready`: a validated frame stands at the head of `q` (R23). -/
  ready : Bool
  /-- `need_more`: the last SCAN ended for lack of input (R24). -/
  needMore : Bool
  /-- `stage`: where that SCAN ran out (R24). -/
  stage : Stage
  /-- `err_overflow`, sticky (R25). -/
  errOverflow : Bool
  /-- `err_illegal`, sticky (R25). -/
  errIllegal : Bool
  /-- `err_no_frame`, sticky (R25). -/
  errNoFrame : Bool
  /-- `crc_match`, the result of the last CRC_CHECK (R26). -/
  crcMatch : Bool
  /-- `crc_acc`, the accumulator of the CRC generator unit (R26). -/
  crcAcc : Crc
  /-- `crc_err_cnt`, CRC mismatches found by the scanner, mod 2^32 (R27). -/
  crcErrCnt : Word
  /-- `frame_cnt`, frames validated by the scanner, mod 2^32 (R27). -/
  frameCnt : Word
  deriving DecidableEq, Repr

/-- The reset values of R20 and R230. -/
def Block.reset : Block :=
  { q := [], ready := false, needMore := false, stage := .none
    errOverflow := false, errIllegal := false, errNoFrame := false, crcMatch := false
    crcAcc := 0, crcErrCnt := 0, frameCnt := 0 }

/-- The width of a host bus access. Only 32 bits belong to the interface (R64). -/
inductive AccessWidth where
  | w8
  | w16
  | w32
  deriving DecidableEq, Repr

/-- What asserts a reset from outside (R231). -/
inductive ResetSource where
  | powerOn
  | resetInput
  deriving DecidableEq, Repr

/-- One event of the host's side of the interface (R5, R12, R231). Addresses are platform addresses (log 2). -/
inductive HostEvent where
  /-- `BusRead`: the value goes to the host. -/
  | read (width : AccessWidth) (addr : Nat)
  /-- `BusWrite`. -/
  | write (width : AccessWidth) (addr : Nat) (data : Word)
  /-- Power-on or the platform's reset input (log 9). -/
  | reset (src : ResetSource)
  deriving DecidableEq, Repr

/-- The machine: one instance of the block, its parameters, and the host's side of the bus. -/
structure State where
  /-- The instance's parameters. No step changes them (R35, log 1). -/
  params : Params
  /-- The block state of R20. -/
  block : Block
  /-- The events the host has still to issue, the next one first (R72, R247, log 4). -/
  pending : List HostEvent
  /-- The values bus reads have returned, the oldest first (log 5). -/
  readLog : List Word
  deriving DecidableEq, Repr

/-- An instance with parameters `p` right after reset (R230), its host with nothing to issue. -/
def State.resetWith (p : Params) : State := { params := p, block := Block.reset, pending := [], readLog := [] }

/-- The machine right after reset: the block state of R230 in the reference instance (logs 1 to 5). -/
def State.reset : State := State.resetWith Params.reference

/-- Why a step stops with a fault. No command faults: the block has no traps (R200, R207). -/
inductive Fault where
  /-- Raised by `hostStep` for a bus access whose address is outside the 0x4000-byte aperture (R31, R60): it is no access of this
  block. Safe: the model stops where the platform would go on (log 7). -/
  | outsideAperture
  deriving DecidableEq, Repr

/-- Why a step has no defined outcome. -/
inductive Refusal where
  /-- Raised by `exec` for a command without a meaning. Safe. No command is left without one. -/
  | notModelled (mnemonic : String)
  /-- Raised by `hostStep` for an 8-bit or 16-bit access: "a model refuses it" (R64). Safe. -/
  | subWordAccess
  /-- Raised by `hostStep` for an offset that is not a multiple of 4: "a model refuses it" (R64). Safe. -/
  | misalignedAccess
  /-- Raised by `hostStep` when the host's program has ended: the block takes no step of its own (R5, R247). Safe (log 6). -/
  | hostProgramEnded
  deriving DecidableEq, Repr

end Sys2Proof.Machine
end

