-- ==== Sys2Proof/Machine/Flags.lean ====
section
/-! DEFINITION. The flags: STATUS (10_state.md R33, R42) and the packed FRAME_INFO register (R36). The block has no arithmetic
condition codes (R42). -/

namespace Sys2Proof.Machine

/-- The STAGE code of R33. -/
def Stage.code : Stage → BitVec 3
  | .none => 0
  | .seekPreamble => 1
  | .readLength => 2
  | .readPayload => 3
  | .readCrc => 4

/-- A flag as the `UInt32` 0 or 1 (`zext_32`). -/
def flagWord (f : Bool) : Word := (BitVec.ofBool f).setWidth 32

/-- STATUS (R33). -/
def statusWord (b : Block) : Word :=
  (flagWord b.crcMatch <<< 16) ||| (flagWord b.errNoFrame <<< 10) ||| (flagWord b.errIllegal <<< 9)
    ||| (flagWord b.errOverflow <<< 8) ||| (b.stage.code.setWidth 32 <<< 2) ||| (flagWord b.needMore <<< 1)
    ||| flagWord b.ready

/-- FRAME_INFO (R36): `{000, TYPE_VALID, MSG_TYPE, RSV, LEN}` of the held frame, 0 without one. -/
def frameInfoWord (b : Block) : Word :=
  if b.ready then (0 : BitVec 3) ++ BitVec.ofBool (typeValid b.q) ++ msgType b.q ++ rsvField b.q ++ lenField b.q
  else 0

/-- FRAME_CRC (R37): the transmitted bytes in arrival order, the same in either wire order; 0 without a held frame. -/
def frameCrcWord (b : Block) : Word :=
  if b.ready then
    (0 : Byte) ++ (transmittedCrc b.q).1 ++ (transmittedCrc b.q).2.1 ++ (transmittedCrc b.q).2.2
  else 0

end Sys2Proof.Machine
end

