-- ==== Sys2Proof/Machine/Ops.lean ====
section
/-! DEFINITION. The shared operations on the block state: raising an error, the input buffer, the outcomes of a scan. -/

namespace Sys2Proof.Machine

/-- The answer of a command or of a step. -/
abbrev Answer := Host.Outcome State Fault Refusal

/-- The same machine with another block state. -/
def State.withBlock (s : State) (b : Block) : State := { s with block := b }

/-- The next state of an answer, if it is one. -/
def nextState : Answer → Option State
  | .next s => some s
  | .fault _ => none
  | .refused _ => none

/-- The three error conditions (R201). -/
inductive ErrorKind where
  | overflow
  | illegal
  | noFrame
  deriving DecidableEq, Repr

/-- `raise Err(X)` (R12, R200): sets the sticky bit `err_X` and has no other effect. It is the block's whole error mechanism:
control is not transferred and nothing is saved (R207). -/
def Block.raiseErr (b : Block) : ErrorKind → Block
  | .overflow => { b with errOverflow := true }
  | .illegal => { b with errIllegal := true }
  | .noFrame => { b with errNoFrame := true }

/-- Clearing the three error bits (R171). -/
def Block.clearErrors (b : Block) : Block :=
  { b with errOverflow := false, errIllegal := false, errNoFrame := false }

/-- Appending one byte, or dropping it when the buffer is full (R120). -/
def Block.pushByte (p : Params) (b : Block) (x : Byte) : Block :=
  if b.q.length = p.inbufCap then b.raiseErr .overflow
  else { b with q := b.q ++ [x], needMore := false, stage := .none }

/-- Releasing the held frame (R132). -/
def Block.popFrame (b : Block) : Block :=
  if b.ready then { b with q := b.q.drop (frameBytes b.q), ready := false }
  else b.raiseErr .noFrame

/-- Discarding all buffered input (R133). -/
def Block.discardInput (b : Block) : Block :=
  { b with q := [], ready := false, needMore := false, stage := .none }

/-- `outcome NEED_MORE(k)` (R129), with `q` as it stands at that point. -/
def Block.endNeedMore (b : Block) (q : List Byte) (k : Stage) : Block :=
  { b with q := q, needMore := true, stage := k }

/-- `outcome FRAME_READY` (R128), with the frame at the head of `q`. -/
def Block.endFrameReady (b : Block) (q : List Byte) : Block :=
  { b with q := q, ready := true, needMore := false, stage := .none, frameCnt := b.frameCnt + 1 }

/-- Counting `n` CRC mismatches (R27, R127), modulo 2^32. -/
def Block.countMismatches (b : Block) (n : Nat) : Block :=
  { b with crcErrCnt := b.crcErrCnt + BitVec.ofNat 32 n }

end Sys2Proof.Machine
end

