-- ==== Sys2Proof/Machine/Control.lean ====
section
/-! DEFINITION. The control commands (42_control.md) and the effect of an ILLEGAL word. -/

namespace Sys2Proof.Machine

/-- NOP (R170). -/
def execNop (s : State) : Answer := .next s

/-- CLEAR_ERR (R171). -/
def execClearErr (s : State) : Answer := .next (s.withBlock s.block.clearErrors)

/-- SOFT_RESET (R172). The parameters are unaffected. -/
def execSoftReset (s : State) : Answer := .next (s.withBlock Block.reset)

/-- An ILLEGAL word (R173): ERR_ILLEGAL and nothing else, whatever made the word illegal. -/
def execIllegal (s : State) : Answer := .next (s.withBlock (s.block.raiseErr .illegal))

end Sys2Proof.Machine
end

