-- ==== Sys2Proof/Machine/CrcUnit.lean ====
section
/-! DEFINITION. The CRC generator commands (40_crc24q.md section 2). -/

namespace Sys2Proof.Machine

/-- CRC_INIT (R105). -/
def execCrcInit (s : State) : Answer := .next (s.withBlock { s.block with crcAcc := crcInitValue })

/-- CRC_UPDATE b (R106). -/
def execCrcUpdate (b : Byte) (s : State) : Answer :=
  .next (s.withBlock { s.block with crcAcc := crcStep s.block.crcAcc b })

/-- CRC_CHECK t0 t1 t2 (R107): the scanner's positional comparison, on the accumulator. -/
def execCrcCheck (t0 t1 t2 : Byte) (s : State) : Answer :=
  .next (s.withBlock { s.block with crcMatch := crcMatches s.params.wireOrder s.block.crcAcc (t0, t1, t2) })

end Sys2Proof.Machine
end

