-- ==== Sys2Proof/Machine/Scan.lean ====
section
/-! DEFINITION. The scan state machine (41_frame_scanner.md R121 to R131): as the recursion SCAN runs, and as the transition
table of R130. -/

namespace Sys2Proof.Machine

/-- What the stages READ_LENGTH, READ_PAYLOAD, READ_CRC and VALIDATE say of a candidate (R123 to R126). -/
inductive Verdict where
  | needMore (k : Stage)
  | frameReady
  | mismatch
  deriving DecidableEq, Repr

/-- The stages after SEEK_PREAMBLE, on a buffer whose head is a candidate's preamble (R123 to R126). Each length is checked
before the bytes it covers are read. -/
def examine (o : WireOrder) (q : List Byte) : Verdict :=
  if q.length < 3 then .needMore .readLength
  else if q.length < 3 + frameLen q then .needMore .readPayload
  else if q.length < 6 + frameLen q then .needMore .readCrc
  else if frameValid o q then .frameReady
  else .mismatch

/-- The two outcomes of a scan (R128, R129). -/
inductive ScanOutcome where
  | needMore (k : Stage)
  | frameReady
  deriving DecidableEq, Repr

/-- The result of a scan: the final buffer, the outcome and the number of CRC mismatches counted (R135). -/
structure ScanResult where
  q : List Byte
  outcome : ScanOutcome
  mismatches : Nat
  deriving DecidableEq, Repr

/-- One more mismatch before the rest of the scan (R127). -/
def ScanResult.afterMismatch (r : ScanResult) : ScanResult := { r with mismatches := r.mismatches + 1 }

/-- SCAN's loop from `ready = 0` (R121): seek the preamble, examine the candidate, and after a mismatch drop exactly the failed
preamble byte and seek again (R127). -/
def scanBytes (o : WireOrder) : List Byte → ScanResult
  | [] => ⟨[], .needMore .seekPreamble, 0⟩
  | x :: rest =>
    if x = preamble then
      match examine o (x :: rest) with
      | .needMore k => ⟨x :: rest, .needMore k, 0⟩
      | .frameReady => ⟨x :: rest, .frameReady, 0⟩
      | .mismatch => (scanBytes o rest).afterMismatch
    else scanBytes o rest

/-- What a scan's result does to the block (R127 to R129). -/
def Block.applyScan (b : Block) (r : ScanResult) : Block :=
  match r.outcome with
  | .needMore k => (b.countMismatches r.mismatches).endNeedMore r.q k
  | .frameReady => (b.countMismatches r.mismatches).endFrameReady r.q

/-- SCAN on the block (R121): nothing while a frame is held. -/
def Block.scan (o : WireOrder) (b : Block) : Block :=
  if b.ready then b else b.applyScan (scanBytes o b.q)

/-- A row's "from" in the transition table of R130. `entry` carries `ready`. -/
inductive ScanPoint where
  | entry (ready : Bool)
  | seekPreamble
  | readLength
  | readPayload
  | readCrc
  | validate
  | resync
  | dispatch
  deriving DecidableEq, Repr

/-- The state inside one SCAN (R30): where it is, the buffer, the latched length and the mismatches counted so far. -/
structure ScanWork where
  point : ScanPoint
  q : List Byte
  len : Nat
  mismatches : Nat
  deriving DecidableEq, Repr

/-- How a SCAN exits (R130): as a no-op, or with a result. -/
inductive ScanExit where
  | noOp
  | result (r : ScanResult)
  deriving DecidableEq, Repr

/-- One transition of R130: to another point, or out. -/
inductive ScanMove where
  | goto (w : ScanWork)
  | exit (e : ScanExit)
  deriving DecidableEq, Repr

/-- The transition table of R130, row by row. -/
def scanTransition (o : WireOrder) (w : ScanWork) : ScanMove :=
  match w.point with
  | .entry true => .exit .noOp
  | .entry false => .goto { w with point := .seekPreamble }
  | .seekPreamble =>
    match w.q with
    | [] => .exit (.result ⟨[], .needMore .seekPreamble, w.mismatches⟩)
    | x :: rest => if x = preamble then .goto { w with point := .readLength } else .goto { w with q := rest }
  | .readLength =>
    if w.q.length < 3 then .exit (.result ⟨w.q, .needMore .readLength, w.mismatches⟩)
    else .goto { w with point := .readPayload, len := frameLen w.q }
  | .readPayload =>
    if w.q.length < 3 + w.len then .exit (.result ⟨w.q, .needMore .readPayload, w.mismatches⟩)
    else .goto { w with point := .readCrc }
  | .readCrc =>
    if w.q.length < 6 + w.len then .exit (.result ⟨w.q, .needMore .readCrc, w.mismatches⟩)
    else .goto { w with point := .validate }
  | .validate =>
    if Sys2Proof.Machine.validate o (w.q.take (3 + w.len))
        (byteAt w.q (3 + w.len), byteAt w.q (4 + w.len), byteAt w.q (5 + w.len)) then
      .goto { w with point := .dispatch }
    else .goto { w with point := .resync }
  | .resync => .goto { w with point := .seekPreamble, q := w.q.drop 1, mismatches := w.mismatches + 1 }
  | .dispatch => .exit (.result ⟨w.q, .frameReady, w.mismatches⟩)

/-- At most `n` transitions of the table: how the SCAN exits, or `none` if it has not exited by then (R131). -/
def runTable (o : WireOrder) : Nat → ScanWork → Option ScanExit
  | 0, _ => none
  | n + 1, w =>
    match scanTransition o w with
    | .exit e => some e
    | .goto w' => runTable o n w'

/-- A SCAN's start in the table, the row "entry". -/
def ScanWork.start (b : Block) : ScanWork := { point := .entry b.ready, q := b.q, len := 0, mismatches := 0 }

/-- What an exit does to the block. -/
def Block.applyExit (b : Block) : ScanExit → Block
  | .noOp => b
  | .result r => b.applyScan r

end Sys2Proof.Machine
end

