-- ==== Sys2Proof/Machine/Scanner.lean ====
section
/-! DEFINITION. The frame scanner and buffer commands (41_frame_scanner.md). -/

namespace Sys2Proof.Machine

/-- PUSH b (R120). -/
def execPush (b : Byte) (s : State) : Answer := .next (s.withBlock (s.block.pushByte s.params b))

/-- SCAN (R121). -/
def execScan (s : State) : Answer := .next (s.withBlock (s.block.scan s.params.wireOrder))

/-- POP (R132). -/
def execPop (s : State) : Answer := .next (s.withBlock s.block.popFrame)

/-- FLUSH (R133). -/
def execFlush (s : State) : Answer := .next (s.withBlock s.block.discardInput)

end Sys2Proof.Machine
end

