-- ==== Sys2Proof/Machine/Dispatch.lean ====
section
/-! DEFINITION. One arm per command: the meaning of each is one direct call. -/

namespace Sys2Proof.Machine

def exec (i : Instr) (s : State) : Host.Outcome State Fault Refusal :=
  match i with
  | .nop => Sys2Proof.Machine.execNop s
  | .push b => Sys2Proof.Machine.execPush b s
  | .scan => Sys2Proof.Machine.execScan s
  | .pop => Sys2Proof.Machine.execPop s
  | .crcInit => Sys2Proof.Machine.execCrcInit s
  | .crcUpdate b => Sys2Proof.Machine.execCrcUpdate b s
  | .crcCheck t0 t1 t2 => Sys2Proof.Machine.execCrcCheck t0 t1 t2 s
  | .clearErr => Sys2Proof.Machine.execClearErr s
  | .flush => Sys2Proof.Machine.execFlush s
  | .softReset => Sys2Proof.Machine.execSoftReset s

end Sys2Proof.Machine
end

