-- ==== Sys2Proof/Machine/Registers.lean ====
section
/-! DEFINITION. The register map (10_state.md section 3) and what a read of each register returns. -/

namespace Sys2Proof.Machine

/-- The registers of R31. -/
inductive Reg where
  | cmd
  | status
  | fill
  | params
  | frameInfo
  | frameCrc
  | crcValue
  | crcErrCnt
  | frameCnt
  | frameWin (i : Nat)
  deriving DecidableEq, Repr

/-- The byte offset of a register in the aperture (R31). -/
def Reg.offset : Reg → Nat
  | .cmd => 0x0000
  | .status => 0x0004
  | .fill => 0x0008
  | .params => 0x000C
  | .frameInfo => 0x0010
  | .frameCrc => 0x0014
  | .crcValue => 0x0018
  | .crcErrCnt => 0x001C
  | .frameCnt => 0x0020
  | .frameWin i => 0x1000 + 4 * i

/-- The register at an offset, `none` where the map lists none (R31). -/
def regAt (off : Nat) : Option Reg :=
  match off with
  | 0x0000 => some .cmd
  | 0x0004 => some .status
  | 0x0008 => some .fill
  | 0x000C => some .params
  | 0x0010 => some .frameInfo
  | 0x0014 => some .frameCrc
  | 0x0018 => some .crcValue
  | 0x001C => some .crcErrCnt
  | 0x0020 => some .frameCnt
  | _ =>
    if 0x1000 ≤ off ∧ off ≤ 0x2010 ∧ off % 4 = 0 then some (.frameWin ((off - 0x1000) / 4)) else none

/-- FILL (R34). -/
def fillWord (b : Block) : Word := BitVec.ofNat 32 b.q.length

/-- PARAMS (R35): INBUF_CAP in [15:0], CRC_WIRE_ORDER in [16] (0 = MSB_FIRST). -/
def paramsWord (p : Params) : Word :=
  (0 : BitVec 15) ++ (match p.wireOrder with | .msbFirst => (0 : BitVec 1) | .lsbFirst => 1)
    ++ BitVec.ofNat 16 p.inbufCap

/-- FRAME_WIN[i] (R41): byte `i` of the held frame, 0 beyond it or without one. -/
def frameWinWord (b : Block) (i : Nat) : Word :=
  if b.ready ∧ i < frameBytes b.q then (byteAt b.q i).setWidth 32 else 0

/-- What a read of a register returns (R32 to R41). -/
def readReg (p : Params) (b : Block) : Reg → Word
  | .cmd => 0
  | .status => statusWord b
  | .fill => fillWord b
  | .params => paramsWord p
  | .frameInfo => frameInfoWord b
  | .frameCrc => frameCrcWord b
  | .crcValue => b.crcAcc.setWidth 32
  | .crcErrCnt => b.crcErrCnt
  | .frameCnt => b.frameCnt
  | .frameWin i => frameWinWord b i

/-- What a read at an offset returns: 0 at an offset the map does not list (R63). -/
def busRead (p : Params) (b : Block) (off : Nat) : Word :=
  match regAt off with
  | some r => readReg p b r
  | none => 0

end Sys2Proof.Machine
end

