-- ==== Sys2Proof/Machine/Bus.lean ====
section
/-! DEFINITION. Host bus accesses (20_memory.md section 2), reset events (R231), and the one event a step performs (R5). -/

namespace Sys2Proof.Machine

/-- Performing a command word written to CMD: decoding comes first (R82, R206), an ILLEGAL word is not performed (R173). -/
def performWord (w : Word) (s : State) : Answer :=
  match decode w with
  | .command i => exec i s
  | .illegal _ => execIllegal s

/-- The offset of an access in the aperture, or why the access has none: an address outside the aperture is no access of this
block (log 7); a sub-word or misaligned access is refused (R64). -/
def accessOffset (p : Params) (width : AccessWidth) (addr : Nat) : Host.Outcome Nat Fault Refusal :=
  if addr < p.baseAddr ∨ p.baseAddr + apertureBytes ≤ addr then .fault .outsideAperture
  else if width ≠ .w32 then .refused .subWordAccess
  else if (addr - p.baseAddr) % 4 ≠ 0 then .refused .misalignedAccess
  else .next (addr - p.baseAddr)

/-- A read returns its value to the host and changes nothing else (R67). -/
def performRead (width : AccessWidth) (addr : Nat) (s : State) : Answer :=
  match accessOffset s.params width addr with
  | .next off => .next { s with readLog := s.readLog ++ [busRead s.params s.block off] }
  | .fault f => .fault f
  | .refused r => .refused r

/-- A write to CMD performs its word (R32); a write to any other offset is ignored (R63). -/
def performWrite (width : AccessWidth) (addr : Nat) (data : Word) (s : State) : Answer :=
  match accessOffset s.params width addr with
  | .next off => if off = Reg.cmd.offset then performWord data s else .next s
  | .fault f => .fault f
  | .refused r => .refused r

/-- A reset event gives the block the state of R230, whatever its source (R231). -/
def performReset (s : State) : Answer := .next (s.withBlock Block.reset)

/-- One event of the host's side. -/
def performEvent (e : HostEvent) (s : State) : Answer :=
  match e with
  | .read width addr => performRead width addr s
  | .write width addr data => performWrite width addr data s
  | .reset _ => performReset s

/-- One step: the next event of the host's program, taken off the program and performed whole (R5, R66). With none left the
block takes no step (R247). -/
def hostStep (s : State) : Answer :=
  match s.pending with
  | [] => .refused .hostProgramEnded
  | e :: rest => performEvent e { s with pending := rest }

/-- The host about to write `w` to CMD (log 4). -/
def placeCommand (s : State) (w : Word) : State :=
  { s with pending := .write .w32 (s.params.baseAddr + Reg.cmd.offset) w :: s.pending }

/-- The commands of a list performed one after the other (R72), up to the first that answers no next state. -/
def execAll : List Instr → State → Answer
  | [], s => .next s
  | i :: is, s =>
    match exec i s with
    | .next t => execAll is t
    | .fault f => .fault f
    | .refused r => .refused r

end Sys2Proof.Machine
end

