-- ==== Sys2Proof/Machine/Step.lean ====
section
/-! DEFINITION. The step of the machine, and where its next command word comes from. -/

namespace Sys2Proof.Machine

/-- One step is one event of the host's side of the bus (R5). -/
def step (s : State) : Host.Outcome State Fault Refusal := hostStep s

/-- `s` with the host about to write the `nbits`-bit word `w` to CMD, so that the next step performs it (log 4). -/
def State.withFetchWord (s : State) (nbits w : Nat) : State := placeCommand s (BitVec.ofNat 32 (w % 2 ^ nbits))

end Sys2Proof.Machine
end

