-- ==== Sys2Proof/Machine/Assembler.lean ====
section
/-! DEFINITION. Host programs (30_encoding.md section 4): the operations of R92, the pseudo-instructions of R93, their expansion to
bus accesses, and the text form. -/

namespace Sys2Proof.Machine

/-- One line of a host program: an operation of R92 or a pseudo-instruction of R93. -/
inductive HostLine where
  /-- `MNEMONIC`, `MNEMONIC b` or `CRC_CHECK 0xT0T1T2`. -/
  | command (i : Instr)
  /-- `RD NAME`. -/
  | read (r : Reg)
  /-- `PUSHB b1, ..., bn`. -/
  | pushB (bytes : List Byte)
  /-- `PUSHZ n`. -/
  | pushZ (n : Nat)
  /-- `CRCB b1, ..., bn`. -/
  | crcB (bytes : List Byte)
  /-- `WR_CMD 0xHHHHHHHH`, a raw word that may be ILLEGAL. -/
  | wrCmd (w : Word)
  deriving DecidableEq, Repr

/-- The write of a command word to CMD in an instance with parameters `p`. -/
def commandWrite (p : Params) (w : Word) : HostEvent := .write .w32 (p.baseAddr + Reg.cmd.offset) w

/-- The read of a register. -/
def registerRead (p : Params) (r : Reg) : HostEvent := .read .w32 (p.baseAddr + r.offset)

/-- The commands a line stands for, in order (R93); `RD` and `WR_CMD` stand for none. -/
def HostLine.commands : HostLine → List Instr
  | .command i => [i]
  | .read _ => []
  | .pushB bytes => bytes.map .push
  | .pushZ n => List.replicate n (.push 0)
  | .crcB bytes => .crcInit :: bytes.map .crcUpdate
  | .wrCmd _ => []

/-- The bus accesses of a line (R92, R93). -/
def HostLine.events (p : Params) (l : HostLine) : List HostEvent :=
  match l with
  | .read r => [registerRead p r]
  | .wrCmd w => [commandWrite p w]
  | l => l.commands.map fun i => commandWrite p (encode i)

/-- A blank of the text form. -/
def isBlank (c : Char) : Bool := c == ' ' || c == '\t' || c == '\r'

/-- The text without its leading blanks. -/
def trimLeft : List Char → List Char
  | [] => []
  | c :: cs => if isBlank c then trimLeft cs else c :: cs

/-- The text without its blanks at both ends. -/
def trim (cs : List Char) : List Char := (trimLeft (trimLeft cs).reverse).reverse

/-- The pieces between the separators, at least one. -/
def splitAtChar (sep : Char) : List Char → List (List Char)
  | [] => [[]]
  | c :: cs =>
    if c = sep then [] :: splitAtChar sep cs
    else
      match splitAtChar sep cs with
      | [] => [[c]]
      | piece :: pieces => (c :: piece) :: pieces

/-- A line without its comment and outer blanks: `;` starts a comment (R92). -/
def stripComment (line : List Char) : List Char := trim (line.takeWhile (· ≠ ';'))

/-- A line that ends in a comma goes on in the next one, as the programs of 95_test_vectors.md write it (log 18). -/
def joinContinued : List Char → List (List Char) → List (List Char)
  | open', [] => [open']
  | open', line :: lines =>
    if (open' ++ line).getLast? = some ',' then joinContinued (open' ++ line) lines
    else (open' ++ line) :: joinContinued [] lines

/-- The digits of a decimal number, each at the place of its value. -/
def decDigits : List Char := "0123456789".toList

/-- The digits of a hexadecimal number, each at the place of its value. -/
def hexDigits : List Char := decDigits ++ "ABCDEF".toList

/-- The value of a decimal digit. -/
def decDigit (c : Char) : Option Nat := decDigits.findIdx? (· == c)

/-- The value of a hexadecimal digit, in either case (log 18). -/
def hexDigit (c : Char) : Option Nat := hexDigits.findIdx? (· == c.toUpper)

/-- The number a run of digits writes, most significant digit first. -/
def digitsValue (base : Nat) (digit : Char → Option Nat) (acc : Nat) : List Char → Option Nat
  | [] => some acc
  | c :: cs =>
    match digit c with
    | some d => digitsValue base digit (base * acc + d) cs
    | none => none

/-- `0x` and exactly `n` hexadecimal digits. -/
def parseHex (n : Nat) (cs : List Char) : Option Nat :=
  match cs with
  | '0' :: 'x' :: ds => if ds.length = n then digitsValue 16 hexDigit 0 ds else none
  | _ => none

/-- At least one decimal digit, and nothing else. -/
def parseDec (cs : List Char) : Option Nat := if cs = [] then none else digitsValue 10 decDigit 0 cs

/-- A byte operand: `0xHH`, or a decimal 0 to 255 (R92). -/
def parseByte (cs : List Char) : Option Byte :=
  match (parseHex 2 cs <|> parseDec cs) with
  | some n => if byteOperandWf n then some (BitVec.ofNat 8 n) else none
  | none => none

/-- A list of byte operands, all well formed. -/
def parseBytes : List (List Char) → Option (List Byte)
  | [] => some []
  | cs :: rest =>
    match parseByte cs, parseBytes rest with
    | some b, some bs => some (b :: bs)
    | _, _ => none

/-- A register's name (R31); `FRAME_WIN[i]` with `i` at most 1028 (R41). -/
def parseReg (cs : List Char) : Option Reg :=
  if cs = "CMD".toList then some .cmd
  else if cs = "STATUS".toList then some .status
  else if cs = "FILL".toList then some .fill
  else if cs = "PARAMS".toList then some .params
  else if cs = "FRAME_INFO".toList then some .frameInfo
  else if cs = "FRAME_CRC".toList then some .frameCrc
  else if cs = "CRC_VALUE".toList then some .crcValue
  else if cs = "CRC_ERR_CNT".toList then some .crcErrCnt
  else if cs = "FRAME_CNT".toList then some .frameCnt
  else if cs.take 10 = "FRAME_WIN[".toList ∧ cs.getLast? = some ']' then
    match parseDec ((cs.drop 10).dropLast) with
    | some i => if windowIndexWf i then some (.frameWin i) else none
    | none => none
  else none

/-- The comma-separated operands of a line's text after its mnemonic. -/
def operandsOf (cs : List Char) : List (List Char) :=
  if trim cs = [] then [] else (splitAtChar ',' cs).map trim

/-- A line with its mnemonic and operands (R92, R93), or `none` where it is ill formed. -/
def parseOperation (name : List Char) (ops : List (List Char)) : Option HostLine :=
  match ops with
  | [] =>
    if name = "NOP".toList then some (.command .nop)
    else if name = "SCAN".toList then some (.command .scan)
    else if name = "POP".toList then some (.command .pop)
    else if name = "CRC_INIT".toList then some (.command .crcInit)
    else if name = "CLEAR_ERR".toList then some (.command .clearErr)
    else if name = "FLUSH".toList then some (.command .flush)
    else if name = "SOFT_RESET".toList then some (.command .softReset)
    else none
  | op :: more =>
    if name = "PUSHB".toList then (parseBytes ops).map .pushB
    else if name = "CRCB".toList then (parseBytes ops).map .crcB
    else if more ≠ [] then none
    else if name = "PUSH".toList then (parseByte op).map fun b => .command (.push b)
    else if name = "CRC_UPDATE".toList then (parseByte op).map fun b => .command (.crcUpdate b)
    else if name = "CRC_CHECK".toList then
      match parseHex 6 op with
      | some n =>
        if wordOperandWf 24 n then
          some (.command (.crcCheck (BitVec.ofNat 8 (n / 65536)) (BitVec.ofNat 8 (n / 256)) (BitVec.ofNat 8 n)))
        else none
      | none => none
    else if name = "PUSHZ".toList then (parseDec op).map .pushZ
    else if name = "WR_CMD".toList then
      match parseHex 8 op with
      | some n => if wordOperandWf 32 n then some (.wrCmd (BitVec.ofNat 32 n)) else none
      | none => none
    else if name = "RD".toList then (parseReg op).map .read
    else none

/-- One line without its comment: no operation where it is blank. -/
def parseLine (cs : List Char) : Option (List HostLine) :=
  if cs = [] then some []
  else (parseOperation (cs.takeWhile fun c => !isBlank c) (operandsOf (cs.dropWhile fun c => !isBlank c))).map ([·])

/-- All lines, or `none` where one is ill formed. -/
def parseLines : List (List Char) → Option (List HostLine)
  | [] => some []
  | cs :: rest =>
    match parseLine cs, parseLines rest with
    | some l, some ls => some (l ++ ls)
    | _, _ => none

/-- A host program's text as its lines (R92). -/
def parseProgram (text : String) : Option (List HostLine) :=
  parseLines (joinContinued [] ((splitAtChar '\n' text.toList).map stripComment))

/-- A host program's text as the bus accesses it makes (R92, R93, R247). -/
def assemble (p : Params) (text : String) : Option (List HostEvent) :=
  (parseProgram text).map fun ls => ls.flatMap (HostLine.events p)

/-- The machine with a host program loaded, in the place of what its host had still to issue (log 4). -/
def State.withProgram (s : State) (events : List HostEvent) : State := { s with pending := events }

end Sys2Proof.Machine
end

