-- ==== Sys2Proof/Machine/HostLoop.lean ====
section
/-! DEFINITION. The host's side of the two loops the spec describes, on the block state that PUSH, SCAN and POP act on: the host
loop of R233 (70_reset_and_hazards.md), which pushes only while the buffer has room, and the host of R135 (41_frame_scanner.md),
which pushes whole batches and asks that no PUSH is rejected. -/

namespace Sys2Proof.Machine

/-- The bytes FRAME_WIN shows of the held frame (R41, R62). -/
def Block.heldFrame (b : Block) : List Byte := b.q.take (frameBytes b.q)

/-- The inner loop of R233 and R135, at most `n` rounds: SCAN; with a frame ready, read it and POP; else stop. It gives the frames
read, in order, and the block after the last SCAN. -/
def drainLoop (p : Params) : Nat → Block → List (List Byte) × Block
  | 0, b => ([], b)
  | n + 1, b =>
    let scanned := b.scan p.wireOrder
    if scanned.ready then
      let rest := drainLoop p n scanned.popFrame
      (scanned.heldFrame :: rest.1, rest.2)
    else ([], scanned)

/-- The inner loop to its end. Every POP drops at least 6 bytes, so `|q| + 1` rounds are enough (log 17). -/
def drain (p : Params) (b : Block) : List (List Byte) × Block := drainLoop p (b.q.length + 1) b

/-! ### The host loop of R233 -/

/-- "PUSH each newly available stream byte, while FILL < INBUF_CAP" (R233): the block after those PUSHes, and the bytes the host
still has. A byte it has not pushed stays with the host (R237). -/
def Block.pushWhileRoom (p : Params) (b : Block) : List Byte → Block × List Byte
  | [] => (b, [])
  | x :: xs => if b.q.length < p.inbufCap then (b.pushByte p x).pushWhileRoom p xs else (b, x :: xs)

/-- The host between two rounds of R233's outer loop, beside its block. -/
structure HostLoop where
  /-- The frames it has read and routed, in order. -/
  delivered : List (List Byte)
  /-- The stream bytes it has and has not pushed yet, in stream order. -/
  waiting : List Byte
  block : Block
  deriving DecidableEq, Repr

/-- One round of R233's outer loop, `arrived` being the bytes that became available since the last one: push while there is room,
then drain. -/
def HostLoop.round (p : Params) (h : HostLoop) (arrived : List Byte) : HostLoop :=
  let pushed := h.block.pushWhileRoom p (h.waiting ++ arrived)
  let drained := drain p pushed.1
  { delivered := h.delivered ++ drained.1, waiting := pushed.2, block := drained.2 }

/-- Rounds in which nothing arrives, at most `n`, until the host has pushed every byte. -/
def HostLoop.settle (p : Params) : Nat → HostLoop → HostLoop
  | 0, h => h
  | n + 1, h => if h.waiting = [] then h else HostLoop.settle p n (h.round p [])

/-- The host loop of R233 over a finite stream: a round for each arrival, then rounds until every byte is pushed. After a drain the
buffer has room (R236), so each of those pushes at least one byte (log 17). -/
def hostLoop (p : Params) (b : Block) (arrivals : List (List Byte)) : HostLoop :=
  let h := arrivals.foldl (HostLoop.round p) { delivered := [], waiting := [], block := b }
  h.settle p h.waiting.length

/-! ### The host of R135 -/

/-- One batch of PUSHes, whether or not there is room (R61: stream order is push order). -/
def Block.pushAll (p : Params) (b : Block) (bytes : List Byte) : Block := bytes.foldl (Block.pushByte p) b

/-- A batch of PUSHes and then "repeats `SCAN; if FRAME_READY then read the frame, POP` until NEED_MORE" (R135). -/
def feedBatch (p : Params) (b : Block) (batch : List Byte) : List (List Byte) × Block := drain p (b.pushAll p batch)

/-- The host of R135 over a stream that arrives in batches: all frames delivered, in order, and the final block. -/
def feedBatches (p : Params) : Block → List (List Byte) → List (List Byte) × Block
  | b, [] => ([], b)
  | b, batch :: batches =>
    let first := feedBatch p b batch
    let rest := feedBatches p first.2 batches
    (first.1 ++ rest.1, rest.2)

end Sys2Proof.Machine
end

