-- ==== Sys2Proof/Safety.lean ====
section
/-! DEFINITION. What a safe state is: the invariants the spec gives the block (10_state.md R20, R23, R24; 00_scope.md R6). -/

namespace Sys2Proof.Machine

/-- "The held frame occupies q[0..6+L(q)) and passed its CRC" (R23), for a buffer whose frame is held. -/
structure HeldFrame (o : WireOrder) (q : List Byte) : Prop where
  /-- `q[0] = 0xD3`. -/
  head : q.head? = some preamble
  /-- `|q| >= 6 + L(q)`. -/
  whole : 6 + frameLen q ≤ q.length
  /-- `validate(q[0..3+L(q)), q[3+L(q)..6+L(q)))`. -/
  valid : frameValid o q = true

/-- The buffer is too short for the stage that waits (R24). With stage NONE nothing waits. -/
def waitsAt (q : List Byte) : Stage → Prop
  | .none => True
  | .seekPreamble => q = []
  | .readLength => q.head? = some preamble ∧ q.length < 3
  | .readPayload => q.head? = some preamble ∧ 3 ≤ q.length ∧ q.length < 3 + frameLen q
  | .readCrc => q.head? = some preamble ∧ 3 + frameLen q ≤ q.length ∧ q.length < 6 + frameLen q

/-- The invariants of the block state in an instance with parameters `p`. -/
structure Block.Inv (p : Params) (b : Block) : Prop where
  /-- `|q| <= INBUF_CAP` (R20). -/
  fits : b.q.length ≤ p.inbufCap
  /-- R23. -/
  held : b.ready = true → HeldFrame p.wireOrder b.q
  /-- "`stage != 0` holds exactly when `need_more = 1`" (R24). -/
  stageIff : b.needMore = true ↔ b.stage ≠ .none
  /-- "`ready = 1` implies `need_more = 0`" (R24). -/
  readyNotWaiting : b.ready = true → b.needMore = false
  /-- The cases of R24. -/
  waits : waitsAt b.q b.stage

/-- A machine whose parameters obey R6 and whose block obeys its invariants. -/
structure State.Inv (s : State) : Prop where
  paramsOk : s.params.wf = true
  blockOk : s.block.Inv s.params

end Sys2Proof.Machine
end

