-- ==== Sys2Proof/Certificates/Slice0/Obligations.lean ====
section
/-! DEFINITION. The statements about the model, each from the numbered rules of spec/. Offsets are written as numbers, as R31 has
them; a bus access at offset `off` is an access at address `baseAddr + off`. -/

open Sys2Proof Sys2Proof.Machine

/-! ### Encoding -/

/-- R82: a word is a command exactly when its masked bits are the command's match, the operands are the fields of R80, a word that
matches no row is ILLEGAL, and no two rows match one word. -/
def Obligations.DecodeByMatchAndMask : Prop :=
  ∀ w : Word,
    (decode w = .command .nop ↔ w &&& 0xFFFFFFFF = 0x00000000) ∧
    (∀ b, decode w = .command (.push b) ↔ w &&& 0xFFFFFF00 = 0x10000000 ∧ b = w.extractLsb' 0 8) ∧
    (decode w = .command .scan ↔ w &&& 0xFFFFFFFF = 0x20000000) ∧
    (decode w = .command .pop ↔ w &&& 0xFFFFFFFF = 0x30000000) ∧
    (decode w = .command .crcInit ↔ w &&& 0xFFFFFFFF = 0x40000000) ∧
    (∀ b, decode w = .command (.crcUpdate b) ↔ w &&& 0xFFFFFF00 = 0x50000000 ∧ b = w.extractLsb' 0 8) ∧
    (∀ t0 t1 t2, decode w = .command (.crcCheck t0 t1 t2) ↔
      w &&& 0xFF000000 = 0x60000000 ∧
        t0 = w.extractLsb' 16 8 ∧ t1 = w.extractLsb' 8 8 ∧ t2 = w.extractLsb' 0 8) ∧
    (decode w = .command .clearErr ↔ w &&& 0xFFFFFFFF = 0x70000000) ∧
    (decode w = .command .flush ↔ w &&& 0xFFFFFFFF = 0x80000000) ∧
    (decode w = .command .softReset ↔ w &&& 0xFFFFFFFF = 0xF0000000) ∧
    ((∃ r, decode w = .illegal r) ↔ ∀ row ∈ opcodeTable, row.fits w = false) ∧
    opcodeTable.Pairwise fun r r' => ¬ (r.fits w = true ∧ r'.fits w = true)

/-- R80 to R82: every command, with every operand, decodes from its own word. -/
def Obligations.DecodeOfEncode : Prop := ∀ i : Instr, decode (encode i) = .command i

/-- R82: a word that decodes to a command is the command's own word, so each command has one word. -/
def Obligations.EncodeOfDecode : Prop := ∀ (w : Word) (i : Instr), decode w = .command i → encode i = w

/-- R83, R173: OP 0x9 to 0xE, or a must-be-zero bit of the form of its OP, makes a word ILLEGAL; performing it sets ERR_ILLEGAL
and does nothing else; and 0x00000000 is the only word that is a no-op in every state. -/
def Obligations.IllegalWordsOnlySetErrIllegal : Prop :=
  ∀ w : Word,
    ((9 ≤ (w.extractLsb' 28 4).toNat ∧ (w.extractLsb' 28 4).toNat ≤ 14) ∨
      ((w.extractLsb' 28 4).toNat ∈ [1, 5] ∧ w.extractLsb' 8 20 ≠ 0) ∨
      ((w.extractLsb' 28 4).toNat = 6 ∧ w.extractLsb' 24 4 ≠ 0) ∨
      ((w.extractLsb' 28 4).toNat ∈ [0, 2, 3, 4, 7, 8, 15] ∧ w.extractLsb' 0 28 ≠ 0) →
        (∃ r, decode w = .illegal r) ∧
          ∀ s : State, performWord w s = .next { s with block := { s.block with errIllegal := true } }) ∧
    ((∀ s : State, performWord w s = .next s) → w = 0x00000000)

/-- Words written out from the fields of R80 and R81 decode to what they stand for: five to their commands, and two to ILLEGAL (R82,
R83). That ILLEGAL comes with a reason, and which of the two reasons these words get, is the model's choice (log 11). -/
def Obligations.WrittenOutWordsDecode : Prop :=
  decode 0x00000000 = .command .nop ∧ decode 0x100000D3 = .command (.push 0xD3) ∧
    decode 0x20000000 = .command .scan ∧ decode 0x609FEF29 = .command (.crcCheck 0x9F 0xEF 0x29) ∧
    decode 0xF0000000 = .command .softReset ∧ decode 0x01000000 = .illegal .mustBeZero ∧
    decode 0x90000000 = .illegal .reservedOp

/-! ### The bus and the registers -/

/-- R32: a write to CMD performs the command the word encodes, whole, in one step; an ILLEGAL word sets ERR_ILLEGAL (R173); a read
of CMD returns 0 and has no effect. -/
def Obligations.CmdWritePerformsItsWord : Prop :=
  ∀ (s : State) (rest : List HostEvent),
    (∀ w, s.pending = .write .w32 (s.params.baseAddr + 0x0000) w :: rest →
      (∀ i, decode w = .command i → step s = exec i { s with pending := rest }) ∧
      (∀ r, decode w = .illegal r →
        step s = .next { s with pending := rest, block := { s.block with errIllegal := true } })) ∧
    (s.pending = .read .w32 (s.params.baseAddr + 0x0000) :: rest →
      step s = .next { s with pending := rest, readLog := s.readLog ++ [0x00000000] })

/-- R67: a read changes no state and gives its value to the host; two reads with no write between them return the same value; a
write to another offset than CMD has no effect; and a CMD write is not idempotent. -/
def Obligations.ReadsHaveNoSideEffect : Prop :=
  (∀ (s : State) (rest : List HostEvent) (off : Nat), off < 0x4000 → off % 4 = 0 →
    (s.pending = .read .w32 (s.params.baseAddr + off) :: rest →
      step s = .next { s with pending := rest, readLog := s.readLog ++ [busRead s.params s.block off] }) ∧
    (s.pending = .read .w32 (s.params.baseAddr + off) :: .read .w32 (s.params.baseAddr + off) :: rest →
      ∃ v, Host.Core.run core 2 s = .next { s with pending := rest, readLog := s.readLog ++ [v, v] }) ∧
    (∀ d, off ≠ 0x0000 → s.pending = .write .w32 (s.params.baseAddr + off) d :: rest →
      step s = .next { s with pending := rest })) ∧
  ∃ (s t u : State) (w : Word), performWord w s = .next t ∧ performWord w t = .next u ∧ t.block ≠ u.block

/-- R63: a read of an offset that R31 does not list returns 0, a write to any offset other than CMD is ignored, a read of CMD
returns 0, and none of them changes any state of the block. -/
def Obligations.UnmappedAndWrongDirection : Prop :=
  ∀ (s : State) (rest : List HostEvent) (off : Nat), off < 0x4000 → off % 4 = 0 →
    ((off = 0x0000 ∨ (0x0020 < off ∧ ¬ (0x1000 ≤ off ∧ off ≤ 0x2010))) →
      s.pending = .read .w32 (s.params.baseAddr + off) :: rest →
        step s = .next { s with pending := rest, readLog := s.readLog ++ [0x00000000] }) ∧
    (∀ d, off ≠ 0x0000 → s.pending = .write .w32 (s.params.baseAddr + off) d :: rest →
      step s = .next { s with pending := rest })

/-- R64: within the aperture an 8-bit or 16-bit access and a misaligned access are refused; a 32-bit aligned one is not. R64 gives no
order for an access that is both: that it is refused for its width, and the names of the refusals, are the model's choice (log 8). -/
def Obligations.SubWordAndMisalignedRefused : Prop :=
  ∀ (s : State) (rest : List HostEvent) (e : HostEvent) (width : AccessWidth) (off : Nat), off < 0x4000 →
    s.pending = e :: rest →
    (e = .read width (s.params.baseAddr + off) ∨ ∃ d, e = .write width (s.params.baseAddr + off) d) →
      (width ≠ .w32 → step s = .refused .subWordAccess) ∧
      (width = .w32 → off % 4 ≠ 0 → step s = .refused .misalignedAccess) ∧
      (width = .w32 → off % 4 = 0 → ∃ t, step s = .next t)

/-- A step stops only for want of a defined access: it answers a next state exactly when the host's next event is a reset, or a
32-bit aligned access inside the aperture. In particular no command and no error condition stops the block (R200, R64). That an
address outside the aperture and an ended program stop the model is the model's choice (logs 6 and 7). -/
def Obligations.OnlyUndefinedAccessesStop : Prop :=
  ∀ s : State, (∃ t, step s = .next t) ↔
    ∃ e rest, s.pending = e :: rest ∧
      ((∃ src, e = .reset src) ∨
        ∃ off, off < 0x4000 ∧ off % 4 = 0 ∧
          (e = .read .w32 (s.params.baseAddr + off) ∨ ∃ d, e = .write .w32 (s.params.baseAddr + off) d))

/-- R33: STATUS bit by bit, with the five STAGE codes, every other bit 0, and no field writable through it. -/
def Obligations.StatusShowsTheFlags : Prop :=
  (∀ (p : Params) (b : Block), let v := busRead p b 0x0004
    v.getLsbD 0 = b.ready ∧ v.getLsbD 1 = b.needMore ∧
    v.extractLsb' 2 3 = (match b.stage with
      | .none => 0 | .seekPreamble => 1 | .readLength => 2 | .readPayload => 3 | .readCrc => 4) ∧
    v.extractLsb' 5 3 = 0 ∧ v.getLsbD 8 = b.errOverflow ∧ v.getLsbD 9 = b.errIllegal ∧
    v.getLsbD 10 = b.errNoFrame ∧ v.extractLsb' 11 5 = 0 ∧ v.getLsbD 16 = b.crcMatch ∧ v.extractLsb' 17 15 = 0) ∧
  (∀ (p : Params), busRead p Block.reset 0x0004 = 0) ∧
  ∀ (s : State) (rest : List HostEvent) (d : Word), s.pending = .write .w32 (s.params.baseAddr + 0x0004) d :: rest →
    step s = .next { s with pending := rest }

/-- R34: FILL is the number of buffered bytes, its top half is 0, and it is 0 at reset. -/
def Obligations.FillCountsTheBuffer : Prop :=
  (∀ s : State, s.Inv →
    (busRead s.params s.block 0x0008).toNat = s.block.q.length ∧
      (busRead s.params s.block 0x0008).extractLsb' 16 16 = 0) ∧
  ∀ p : Params, busRead p Block.reset 0x0008 = 0

/-- R35: PARAMS holds INBUF_CAP and CRC_WIRE_ORDER, and no step changes what it reads. -/
def Obligations.ParamsIsConstant : Prop :=
  (∀ (p : Params) (b : Block), p.wf = true → let v := busRead p b 0x000C
    (v.extractLsb' 0 16).toNat = p.inbufCap ∧ (v.getLsbD 16 = true ↔ p.wireOrder = .lsbFirst) ∧
      v.extractLsb' 17 15 = 0) ∧
  ∀ s t : State, step s = .next t → busRead t.params t.block 0x000C = busRead s.params s.block 0x000C

/-- R36: FRAME_INFO field by field; 0 without a held frame. -/
def Obligations.FrameInfoFields : Prop :=
  ∀ (p : Params) (b : Block), let v := busRead p b 0x0010
    (b.ready = false → v = 0) ∧
    (b.ready = true →
      (v.extractLsb' 0 10).toNat = frameLen b.q ∧
      v.extractLsb' 10 6 = (byteAt b.q 1).extractLsb' 2 6 ∧
      (2 ≤ frameLen b.q →
        v.extractLsb' 16 12 = byteAt b.q 3 ++ (byteAt b.q 4).extractLsb' 4 4 ∧ v.getLsbD 28 = true) ∧
      (frameLen b.q < 2 → v.extractLsb' 16 12 = 0 ∧ v.getLsbD 28 = false) ∧
      v.extractLsb' 29 3 = 0)

/-- R22, R87 to R89: the length, the reserved bits and the message type are the big-endian bit fields `getbitu` reads at bit
offsets 6 and 0 of the header and 0 of the payload; a payload under 2 bytes has no type and reports 0. -/
def Obligations.HeaderFieldsAreBigEndian : Prop :=
  ∀ q : List Byte, 3 ≤ q.length →
    frameLen q = ((q[1]!).toNat &&& 0x03) * 256 + (q[2]!).toNat ∧
    frameLen q = getbitu ((q.drop 1).take 2) 6 10 ∧ frameLen q ≤ 1023 ∧
    (rsvField q).toNat = getbitu ((q.drop 1).take 2) 0 6 ∧
    (2 ≤ frameLen q → 3 + frameLen q ≤ q.length →
      typeValid q = true ∧ (msgType q).toNat = getbitu ((q.drop 3).take (frameLen q)) 0 12 ∧
      (msgType q).toNat = (q[3]!).toNat * 16 + (q[4]!).toNat / 16) ∧
    (frameLen q < 2 → typeValid q = false ∧ msgType q = 0)

/-- R37: FRAME_CRC is a raw copy of the transmitted CRC bytes in arrival order, whatever the wire order; 0 without a frame. -/
def Obligations.FrameCrcIsRawCopy : Prop :=
  ∀ (p : Params) (b : Block), let v := busRead p b 0x0014
    (b.ready = false → v = 0) ∧
    (b.ready = true →
      v.extractLsb' 16 8 = byteAt b.q (3 + frameLen b.q) ∧ v.extractLsb' 8 8 = byteAt b.q (4 + frameLen b.q) ∧
      v.extractLsb' 0 8 = byteAt b.q (5 + frameLen b.q) ∧ v.extractLsb' 24 8 = 0)

/-- R38 to R40: CRC_VALUE, CRC_ERR_CNT and FRAME_CNT read their fields, and 0 at reset. -/
def Obligations.ValueAndCounterRegisters : Prop :=
  ∀ (p : Params) (b : Block),
    (busRead p b 0x0018).extractLsb' 0 24 = b.crcAcc ∧ (busRead p b 0x0018).extractLsb' 24 8 = 0 ∧
    busRead p b 0x001C = b.crcErrCnt ∧ busRead p b 0x0020 = b.frameCnt ∧
    busRead p Block.reset 0x0018 = 0 ∧ busRead p Block.reset 0x001C = 0 ∧ busRead p Block.reset 0x0020 = 0

/-- R41: FRAME_WIN[i] is byte i of the held frame, and 0 beyond the frame or without one. -/
def Obligations.FrameWindowShowsTheFrame : Prop :=
  ∀ (p : Params) (b : Block) (i : Nat), i ≤ 1028 →
    (b.ready = true → i < 6 + frameLen b.q → busRead p b (0x1000 + 4 * i) = (byteAt b.q i).setWidth 32) ∧
    (¬ (b.ready = true ∧ i < 6 + frameLen b.q) → busRead p b (0x1000 + 4 * i) = 0) ∧
    busRead p Block.reset (0x1000 + 4 * i) = 0

/-! ### The commands -/

/-- R170: NOP changes nothing, and 0x00000000 is the only NOP. -/
def Obligations.NopChangesNothing : Prop :=
  (∀ s : State, exec .nop s = .next s) ∧ ∀ w : Word, decode w = .command .nop ↔ w = 0x00000000

/-- R120: PUSH appends its byte and clears NEED_MORE and STAGE; on a full buffer it sets ERR_OVERFLOW and nothing else changes. -/
def Obligations.PushAppendsOrOverflows : Prop :=
  ∀ (s : State) (b : Byte),
    (∀ w : Word, decode w = .command (.push b) ↔ w = (0x10000000 : Word) ||| b.setWidth 32) ∧
    (s.block.q.length = s.params.inbufCap →
      exec (.push b) s = .next { s with block := { s.block with errOverflow := true } }) ∧
    (s.block.q.length ≠ s.params.inbufCap →
      exec (.push b) s =
        .next { s with block := { s.block with q := s.block.q ++ [b], needMore := false, stage := .none } })

/-- R130, R131: SCAN is the transition table of R130, which exits within `6 |q| + 7` transitions and drops at most `|q|` bytes, all
from the head; with a frame held it is a no-op (R121). That every row counts as one transition, the entry row too, is the model's
reading of the bound (log 16). -/
def Obligations.ScanFollowsTransitionTable : Prop :=
  ∀ s : State,
    (∃ e, runTable s.params.wireOrder (6 * s.block.q.length + 7) (ScanWork.start s.block) = some e ∧
      exec .scan s = .next { s with block := s.block.applyExit e } ∧
      ∀ r, e = .result r → ∃ k, k ≤ s.block.q.length ∧ r.q = s.block.q.drop k) ∧
    (s.block.ready = true → exec .scan s = .next s)

/-- R122: SEEK_PREAMBLE drops the bytes before the first 0xD3; when the buffer empties the outcome is NEED_MORE(1) with an empty
buffer; a 0xD3 at the head stays there through the later stages of its candidate. -/
def Obligations.SeekDropsToThePreamble : Prop :=
  ∀ (s : State) (garbage rest : List Byte),
    s.block.ready = false → s.block.q = garbage ++ rest → (∀ x ∈ garbage, x ≠ 0xD3) →
      exec .scan s = exec .scan { s with block := { s.block with q := rest } } ∧
      (rest = [] →
        exec .scan s = .next { s with block := { s.block with q := [], needMore := true, stage := .seekPreamble } }) ∧
      (rest.head? = some 0xD3 → examine s.params.wireOrder rest ≠ .mismatch →
        ∃ t, exec .scan s = .next t ∧ t.block.q = rest)

/-- R129 with R123 to R125: a scan that runs short ends with NEED_MORE and the stage's code, the candidate's preamble still at the
head and none of its bytes consumed; nothing else changes. -/
def Obligations.ShortCandidateRewinds : Prop :=
  ∀ s : State, s.block.ready = false →
    (s.block.q = [] →
      exec .scan s = .next { s with block := { s.block with needMore := true, stage := .seekPreamble } }) ∧
    (s.block.q.head? = some 0xD3 →
      (s.block.q.length < 3 →
        exec .scan s = .next { s with block := { s.block with needMore := true, stage := .readLength } }) ∧
      (3 ≤ s.block.q.length → s.block.q.length < 3 + frameLen s.block.q →
        exec .scan s = .next { s with block := { s.block with needMore := true, stage := .readPayload } }) ∧
      (3 + frameLen s.block.q ≤ s.block.q.length → s.block.q.length < 6 + frameLen s.block.q →
        exec .scan s = .next { s with block := { s.block with needMore := true, stage := .readCrc } }))

/-- R127 with R126: on a CRC mismatch exactly one byte, the failed preamble, is dropped, the mismatch is counted, and the scan goes
on from there. -/
def Obligations.MismatchDropsOnlyThePreamble : Prop :=
  ∀ s : State, s.block.ready = false → s.block.q.head? = some 0xD3 →
    6 + frameLen s.block.q ≤ s.block.q.length →
    crcBytes s.params.wireOrder (crc24q (s.block.q.take (3 + frameLen s.block.q))) ≠
      (byteAt s.block.q (3 + frameLen s.block.q), byteAt s.block.q (4 + frameLen s.block.q),
        byteAt s.block.q (5 + frameLen s.block.q)) →
      exec .scan s = exec .scan
        { s with block := { s.block with q := s.block.q.drop 1, crcErrCnt := s.block.crcErrCnt + 1 } }

/-- R128 with R126, R140: a candidate whose CRC matches is held, whatever its length, reserved bits and message type: FRAME_READY,
the counter, and nothing else. -/
def Obligations.ValidCandidateIsHeld : Prop :=
  ∀ s : State, s.block.ready = false → s.block.q.head? = some 0xD3 →
    6 + frameLen s.block.q ≤ s.block.q.length →
    crcBytes s.params.wireOrder (crc24q (s.block.q.take (3 + frameLen s.block.q))) =
      (byteAt s.block.q (3 + frameLen s.block.q), byteAt s.block.q (4 + frameLen s.block.q),
        byteAt s.block.q (5 + frameLen s.block.q)) →
      exec .scan s = .next { s with block :=
        { s.block with ready := true, needMore := false, stage := .none, frameCnt := s.block.frameCnt + 1 } }

/-- R84, R86, R90: whatever its 6 reserved bits and its payload, a frame laid out by R86 with its CRC is found behind any bytes
without a preamble, held whole, and read back: length (R87), reserved bits (R88), the message type of a payload of two bytes or more
(R89) and every byte (R41). TYPE_VALID, and the type of a shorter payload, are in FrameInfoFields. -/
def Obligations.EveryWellFormedFrameIsHeld : Prop :=
  ∀ (s : State) (rsv : BitVec 6) (payload garbage tail : List Byte),
    s.block.ready = false → payload.length ≤ 1023 → (∀ x ∈ garbage, x ≠ 0xD3) →
    let frame := makeFrame s.params.wireOrder rsv payload
    s.block.q = garbage ++ frame ++ tail →
      frame.length = 6 + payload.length ∧
      ∃ t, exec .scan s = .next t ∧
        t = { s with block :=
          { s.block with
            q := frame ++ tail, ready := true, needMore := false, stage := .none
            frameCnt := s.block.frameCnt + 1 } } ∧
        ((busRead t.params t.block 0x0010).extractLsb' 0 10).toNat = payload.length ∧
        (busRead t.params t.block 0x0010).extractLsb' 10 6 = rsv ∧
        (2 ≤ payload.length →
          ((busRead t.params t.block 0x0010).extractLsb' 16 12).toNat = getbitu payload 0 12) ∧
        ∀ i, i < frame.length → busRead t.params t.block (0x1000 + 4 * i) = (byteAt frame i).setWidth 32

/-- R132: POP drops the held frame's `6 + L` bytes and clears FRAME_READY; without a frame it sets ERR_NO_FRAME and nothing else
changes. -/
def Obligations.PopReleasesTheFrame : Prop :=
  ∀ s : State,
    (∀ w : Word, decode w = .command .pop ↔ w = 0x30000000) ∧
    (s.block.ready = false → exec .pop s = .next { s with block := { s.block with errNoFrame := true } }) ∧
    (s.block.ready = true →
      exec .pop s =
        .next { s with block := { s.block with q := s.block.q.drop (6 + frameLen s.block.q), ready := false } })

/-- R133: FLUSH empties the buffer and clears FRAME_READY, NEED_MORE and STAGE; the error bits, the CRC unit and the counters stay. -/
def Obligations.FlushDiscardsInput : Prop :=
  ∀ s : State,
    (∀ w : Word, decode w = .command .flush ↔ w = 0x80000000) ∧
    exec .flush s =
      .next { s with block := { s.block with q := [], ready := false, needMore := false, stage := .none } }

/-- R105: CRC_INIT sets the accumulator to 0x000000 and changes nothing else, CRC_MATCH included. -/
def Obligations.CrcInitClearsTheAccumulator : Prop :=
  ∀ s : State,
    (∀ w : Word, decode w = .command .crcInit ↔ w = 0x40000000) ∧
    exec .crcInit s = .next { s with block := { s.block with crcAcc := 0x000000 } }

/-- R106: CRC_UPDATE feeds its byte to the accumulator and changes nothing else; after CRC_INIT and any bytes the accumulator is
their CRC-24Q. -/
def Obligations.CrcUpdateFeedsTheAccumulator : Prop :=
  (∀ (s : State) (b : Byte),
    (∀ w : Word, decode w = .command (.crcUpdate b) ↔ w = (0x50000000 : Word) ||| b.setWidth 32) ∧
    exec (.crcUpdate b) s = .next { s with block := { s.block with crcAcc := crcStep s.block.crcAcc b } }) ∧
  ∀ (s : State) (bytes : List Byte),
    execAll (.crcInit :: bytes.map .crcUpdate) s = .next { s with block := { s.block with crcAcc := crc24q bytes } }

/-- R107: CRC_CHECK sets CRC_MATCH to the positional comparison of the accumulator's bytes, in the wire order, with T0, T1, T2, and
changes nothing else; under MSB_FIRST the operand word of the accumulator itself always matches. -/
def Obligations.CrcCheckComparesPositions : Prop :=
  ∀ (s : State) (t0 t1 t2 : Byte),
    (∀ w : Word, decode w = .command (.crcCheck t0 t1 t2) ↔
      w = (0x60000000 : Word) ||| (t0.setWidth 32 <<< 16) ||| (t1.setWidth 32 <<< 8) ||| t2.setWidth 32) ∧
    (s.params.wireOrder = .msbFirst →
      exec (.crcCheck t0 t1 t2) s =
        .next { s with block := { s.block with crcMatch := decide (s.block.crcAcc = t0 ++ t1 ++ t2) } } ∧
      performWord ((0x60000000 : Word) ||| s.block.crcAcc.setWidth 32) s =
        .next { s with block := { s.block with crcMatch := true } }) ∧
    (s.params.wireOrder = .lsbFirst →
      exec (.crcCheck t0 t1 t2) s =
        .next { s with block := { s.block with crcMatch := decide (s.block.crcAcc = t2 ++ t1 ++ t0) } })

/-- R171: CLEAR_ERR clears the three error bits and changes nothing else. -/
def Obligations.ClearErrClearsErrorBits : Prop :=
  ∀ s : State,
    (∀ w : Word, decode w = .command .clearErr ↔ w = 0x70000000) ∧
    exec .clearErr s =
      .next { s with block := { s.block with errOverflow := false, errIllegal := false, errNoFrame := false } }

/-- R172, R231: SOFT_RESET gives every field of R20 its reset value, leaves the parameters, and gives exactly the block state that
power-on and a reset input give. -/
def Obligations.SoftResetIsPowerOn : Prop :=
  ∀ s : State,
    (∀ w : Word, decode w = .command .softReset ↔ w = 0xF0000000) ∧
    exec .softReset s = .next { s with block :=
      { q := [], ready := false, needMore := false, stage := .none, errOverflow := false, errIllegal := false
        errNoFrame := false, crcMatch := false, crcAcc := 0x000000, crcErrCnt := 0, frameCnt := 0 } } ∧
    ∀ (src : ResetSource) (rest : List HostEvent), s.pending = .reset src :: rest →
      step s = exec .softReset { s with pending := rest }

/-- R230: after reset every register reads 0 but PARAMS, which reads its constant, and every field has the value R230 lists. -/
def Obligations.ResetLeavesZeros : Prop :=
  ∀ p : Params,
    (State.resetWith p).block =
      { q := [], ready := false, needMore := false, stage := .none, errOverflow := false, errIllegal := false
        errNoFrame := false, crcMatch := false, crcAcc := 0x000000, crcErrCnt := 0, frameCnt := 0 } ∧
    (∀ off, off ≠ 0x000C → busRead p (State.resetWith p).block off = 0) ∧
    ∀ b, busRead p (State.resetWith p).block 0x000C = busRead p b 0x000C

/-! ### The CRC-24Q function -/

/-- R100: one byte enters at the top and is shifted through eight times, each 1 shifted out being reduced by 0x1864CFB, whose bits
are the coefficients of G(x). -/
def Obligations.CrcStepIsShiftAndReduce : Prop :=
  (∀ (c : Crc) (b : Byte),
    crcStep c b = (fun r : Crc =>
      if r.getLsbD 23 then (((r.setWidth 25 <<< 1) ^^^ 0x1864CFB : BitVec 25)).setWidth 24 else r <<< 1)^[8]
        (c ^^^ (b.setWidth 24 <<< 16))) ∧
  ∀ k, (0x1864CFB : BitVec 25).getLsbD k = true ↔ k ∈ [24, 23, 18, 17, 14, 11, 10, 7, 6, 5, 4, 3, 1, 0]

/-- R101: the whole-buffer CRC is the fold of the step from 0x000000, and as a polynomial over GF(2) it is the remainder of
`B(x) x^24` by G(x). -/
def Obligations.CrcIsPolynomialRemainder : Prop :=
  open Polynomial in
  ∀ bytes : List Byte,
    crc24q bytes = bytes.foldl crcStep 0x000000 ∧
    (∑ k ∈ Finset.range 24, if (crc24q bytes).getLsbD k then (X ^ k : (ZMod 2)[X]) else 0) =
      ((∑ k ∈ Finset.range (8 * bytes.length),
          if streamBit bytes k then (X ^ (8 * bytes.length - 1 - k) : (ZMod 2)[X]) else 0) * X ^ 24) %ₘ
        (X ^ 24 + X ^ 23 + X ^ 18 + X ^ 17 + X ^ 14 + X ^ 11 + X ^ 10 + X ^ 7 + X ^ 6 + X ^ 5 + X ^ 4 + X ^ 3 + X + 1)

/-- R102: the table-driven step equals the shifting one for every accumulator and byte, and the listed entries are as given. -/
def Obligations.TableFormIsEquivalent : Prop :=
  (∀ (c : Crc) (b : Byte), crcStep c b = (c <<< 8) ^^^ crcStep 0x000000 (c.extractLsb' 16 8 ^^^ b)) ∧
  [0x00, 0x01, 0x02, 0x03, 0x04, 0x08, 0x10, 0x20, 0x40, 0x80, 0xD3, 0xFF].map (crcStep 0x000000) =
    [0x000000, 0x864CFB, 0x8AD50D, 0x0C99F6, 0x93E6E1, 0xA18139, 0xC54E89, 0x0CD1E9, 0x19A3D2, 0x3347A4, 0xE33309,
      0xDD8538]

/-- R103, R104: the byte order of a transmitted CRC under both wire orders, and validation as the comparison of all three
positions; so the CRC of any buffer validates it. -/
def Obligations.ValidateComparesAllThreeBytes : Prop :=
  ∀ (bytes : List Byte) (t0 t1 t2 : Byte),
    (∀ c : Crc, crcBytes .msbFirst c = (c.extractLsb' 16 8, c.extractLsb' 8 8, c.extractLsb' 0 8) ∧
      crcBytes .lsbFirst c = (c.extractLsb' 0 8, c.extractLsb' 8 8, c.extractLsb' 16 8)) ∧
    (validate .msbFirst bytes (t0, t1, t2) = true ↔ crc24q bytes = t0 ++ t1 ++ t2) ∧
    (validate .lsbFirst bytes (t0, t1, t2) = true ↔ crc24q bytes = t2 ++ t1 ++ t0) ∧
    ∀ o, validate o bytes (crcBytes o (crc24q bytes)) = true

/-- R108: under MSB_FIRST a buffer with its own CRC appended has CRC 0; under LSB_FIRST that fails for some buffer. -/
def Obligations.ResidueIsZero : Prop :=
  (∀ bytes : List Byte,
    crc24q (bytes ++ [(crcBytes .msbFirst (crc24q bytes)).1, (crcBytes .msbFirst (crc24q bytes)).2.1,
      (crcBytes .msbFirst (crc24q bytes)).2.2]) = 0x000000) ∧
  ∃ bytes : List Byte,
    crc24q (bytes ++ [(crcBytes .lsbFirst (crc24q bytes)).1, (crcBytes .lsbFirst (crc24q bytes)).2.1,
      (crcBytes .lsbFirst (crc24q bytes)).2.2]) ≠ 0x000000

/-- R109: flipping any single bit of a buffer changes its CRC and fails validation, in either wire order; so does flipping any single
bit of the three transmitted bytes. -/
def Obligations.SingleBitFlipsAreDetected : Prop :=
  ∀ (o : WireOrder) (bytes : List Byte),
    (∀ n k, n < bytes.length → k < 8 →
      let flipped := bytes.set n (byteAt bytes n ^^^ ((1 : Byte) <<< k))
      crc24q flipped ≠ crc24q bytes ∧ validate o flipped (crcBytes o (crc24q bytes)) = false) ∧
    ∀ k, k < 8 →
      let t := crcBytes o (crc24q bytes)
      validate o bytes (t.1 ^^^ ((1 : Byte) <<< k), t.2.1, t.2.2) = false ∧
      validate o bytes (t.1, t.2.1 ^^^ ((1 : Byte) <<< k), t.2.2) = false ∧
      validate o bytes (t.1, t.2.1, t.2.2 ^^^ ((1 : Byte) <<< k)) = false

/-- R110: the corner cases: the empty buffer, a zero byte, leading zero bytes, the byte 0x01, and linearity over GF(2) for buffers of
equal length. -/
def Obligations.CrcIsLinear : Prop :=
  crc24q [] = 0x000000 ∧ crc24q [0x00] = 0x000000 ∧ crc24q [0x01] = 0x864CFB ∧
    (∀ (n : Nat) (bytes : List Byte), crc24q (List.replicate n 0x00 ++ bytes) = crc24q bytes) ∧
    ∀ a b : List Byte, a.length = b.length → crc24q (List.zipWith (· ^^^ ·) a b) = crc24q a ^^^ crc24q b

/-! ### Whole-machine rules -/

/-- R23, R24 with R20 and R6: the invariants of `ready`, `need_more` and `stage`, the buffer's bound and the parameters' bounds are
kept by every step, from every state that has them. -/
def Obligations.StepKeepsInvariants : Prop := ∀ s t : State, s.Inv → step s = .next t → t.Inv

/-- The invariants hold right after reset, in every instance that obeys R6 and in the reference instance (the model's choice,
log 1). -/
def Obligations.ResetHasInvariants : Prop := (∀ p : Params, p.wf = true → (State.resetWith p).Inv) ∧ State.reset.Inv

/-- R236: whenever NEED_MORE is set, either the buffer is empty or it is shorter than the frame it waits for, which fits in the buffer;
so pushing on up to 1029 bytes is never rejected. -/
def Obligations.RoomAfterNeedMore : Prop :=
  ∀ s : State, s.Inv → s.block.needMore = true →
    ((s.block.stage = .seekPreamble ∧ s.block.q = []) ∨
      (s.block.stage = .readLength ∧ s.block.q.length < 3) ∨
      ((s.block.stage = .readPayload ∨ s.block.stage = .readCrc) ∧
        s.block.q.length < 6 + frameLen s.block.q ∧ 6 + frameLen s.block.q ≤ 1029)) ∧
    1029 ≤ s.params.inbufCap ∧
    ∀ bytes : List Byte, s.block.q.length + bytes.length ≤ 1029 →
      ∃ t, execAll (bytes.map .push) s = .next t ∧ t.block.q = s.block.q ++ bytes ∧
        t.block.errOverflow = s.block.errOverflow

/-- R25: an error bit is set only by the command that detects its condition, is cleared only by CLEAR_ERR and SOFT_RESET, and neither
changes another field of the result nor blocks a command. -/
def Obligations.ErrorBitsAreSticky : Prop :=
  ∀ (i : Instr) (s : State), ∃ t, exec i s = .next t ∧
    (t.block.errOverflow = true → s.block.errOverflow = true ∨
      (∃ b, i = .push b) ∧ s.block.q.length = s.params.inbufCap) ∧
    (t.block.errNoFrame = true → s.block.errNoFrame = true ∨ i = .pop ∧ s.block.ready = false) ∧
    (t.block.errIllegal = true → s.block.errIllegal = true) ∧
    (i ≠ .clearErr → i ≠ .softReset →
      (s.block.errOverflow = true → t.block.errOverflow = true) ∧
      (s.block.errIllegal = true → t.block.errIllegal = true) ∧
      (s.block.errNoFrame = true → t.block.errNoFrame = true)) ∧
    ∀ e1 e2 e3 : Bool, ∃ u,
      exec i { s with block := { s.block with errOverflow := e1, errIllegal := e2, errNoFrame := e3 } } = .next u ∧
      ({ u with block := u.block.clearErrors } : State) = { t with block := t.block.clearErrors }

/-- R206: one word performed raises at most one error bit, an ILLEGAL word only ERR_ILLEGAL, and no word both counts a frame and
raises an error. -/
def Obligations.AtMostOneErrorPerWord : Prop :=
  ∀ (w : Word) (s : State),
    s.block.errOverflow = false → s.block.errIllegal = false → s.block.errNoFrame = false →
    ∃ t, performWord w s = .next t ∧
      ¬ (t.block.errOverflow = true ∧ t.block.errIllegal = true) ∧
      ¬ (t.block.errOverflow = true ∧ t.block.errNoFrame = true) ∧
      ¬ (t.block.errIllegal = true ∧ t.block.errNoFrame = true) ∧
      (t.block.errIllegal = true ↔ ∃ r, decode w = .illegal r) ∧
      (t.block.frameCnt ≠ s.block.frameCnt → decode w ≠ .command .softReset →
        t.block.errOverflow = false ∧ t.block.errIllegal = false ∧ t.block.errNoFrame = false)

/-- R27: only SCAN moves the counters up, FRAME_CNT by one when it takes a frame and CRC_ERR_CNT by at most one per buffered byte;
only SOFT_RESET clears them; and no register write changes them. -/
def Obligations.CountersOnlyCount : Prop :=
  (∀ (i : Instr) (s : State), ∃ t, exec i s = .next t ∧
    (i = .softReset → t.block.frameCnt = 0 ∧ t.block.crcErrCnt = 0) ∧
    (i ≠ .softReset → i ≠ .scan →
      t.block.frameCnt = s.block.frameCnt ∧ t.block.crcErrCnt = s.block.crcErrCnt) ∧
    (i = .scan →
      t.block.frameCnt =
        (if s.block.ready = false ∧ t.block.ready = true then s.block.frameCnt + 1 else s.block.frameCnt) ∧
      ∃ n, n ≤ s.block.q.length ∧ t.block.crcErrCnt = s.block.crcErrCnt + BitVec.ofNat 32 n)) ∧
  ∀ (s : State) (rest : List HostEvent) (off : Nat) (d : Word), off < 0x4000 → off % 4 = 0 → off ≠ 0x0000 →
    s.pending = .write .w32 (s.params.baseAddr + off) d :: rest →
      ∃ t, step s = .next t ∧ t.block.frameCnt = s.block.frameCnt ∧ t.block.crcErrCnt = s.block.crcErrCnt

/-- R26, R240: the scanner never reads or writes the CRC unit, and the CRC commands never read or write the scanner: what each leaves
in its own fields is the same whatever the other's fields hold. -/
def Obligations.CrcUnitAndScannerDoNotInterfere : Prop :=
  (∀ (i : Instr) (s : State), (i = .scan ∨ i = .pop ∨ i = .flush ∨ ∃ b, i = .push b) →
    ∃ t, exec i s = .next t ∧ t.block.crcAcc = s.block.crcAcc ∧ t.block.crcMatch = s.block.crcMatch ∧
      ∀ (acc : Crc) (m : Bool),
        exec i { s with block := { s.block with crcAcc := acc, crcMatch := m } } =
          .next { t with block := { t.block with crcAcc := acc, crcMatch := m } }) ∧
  ∀ (i : Instr) (s : State), (i = .crcInit ∨ (∃ b, i = .crcUpdate b) ∨ ∃ t0 t1 t2, i = .crcCheck t0 t1 t2) →
    ∃ acc m, ∀ b : Block, b.crcAcc = s.block.crcAcc → b.crcMatch = s.block.crcMatch →
      exec i { s with block := b } = .next { s with block := { b with crcAcc := acc, crcMatch := m } }

/-- R42: FRAME_READY is set by SCAN only and cleared by POP, FLUSH and SOFT_RESET only; NEED_MORE and STAGE are set by SCAN only and
cleared by an accepted PUSH, FLUSH, SOFT_RESET or a SCAN that is not a no-op only; CRC_MATCH is written by CRC_CHECK and cleared by
SOFT_RESET only. -/
def Obligations.FlagsChangeOnlyAsListed : Prop :=
  ∀ (i : Instr) (s : State), ∃ t, exec i s = .next t ∧
    (s.block.ready = false → t.block.ready = true → i = .scan) ∧
    (s.block.ready = true → t.block.ready = false → i = .pop ∨ i = .flush ∨ i = .softReset) ∧
    (t.block.needMore ≠ s.block.needMore ∨ t.block.stage ≠ s.block.stage →
      (i = .scan ∧ s.block.ready = false) ∨
      (t.block.needMore = false ∧ t.block.stage = .none ∧
        ((∃ b, i = .push b ∧ t.block.q = s.block.q ++ [b]) ∨ i = .flush ∨ i = .softReset))) ∧
    (t.block.crcMatch ≠ s.block.crcMatch → (∃ t0 t1 t2, i = .crcCheck t0 t1 t2) ∨
      (i = .softReset ∧ t.block.crcMatch = false))

/-- R21, R141: no command modifies, inserts or reorders a buffered byte: PUSH appends at the tail, everything else drops from the
head. -/
def Obligations.BufferIsAFifo : Prop :=
  ∀ (i : Instr) (s : State), ∃ t, exec i s = .next t ∧
    ((∃ b, i = .push b ∧ t.block.q = s.block.q ++ [b]) ∨ ∃ k, k ≤ s.block.q.length ∧ t.block.q = s.block.q.drop k)

/-- R23, R235: while a frame is held, any sequence of SCANs and PUSHes leaves it held, and FRAME_INFO, FRAME_CRC, FRAME_WIN and
FRAME_CNT read the same. -/
def Obligations.HeldFrameStaysUntilReleased : Prop :=
  ∀ (s : State) (cmds : List Instr), s.Inv → s.block.ready = true → (∀ i ∈ cmds, i = .scan ∨ ∃ b, i = .push b) →
    ∃ t, execAll cmds s = .next t ∧ t.block.ready = true ∧ s.block.q <+: t.block.q ∧
      ∀ off, (off = 0x0010 ∨ off = 0x0014 ∨ off = 0x0020 ∨ (0x1000 ≤ off ∧ off ≤ 0x2010)) →
        busRead t.params t.block off = busRead s.params s.block off

/-- R234: after POP of a held frame, FLUSH or SOFT_RESET, FRAME_INFO, FRAME_CRC and every FRAME_WIN entry read 0. -/
def Obligations.FrameRegistersZeroAfterRelease : Prop :=
  ∀ (s : State) (i : Instr), (i = .pop ∧ s.block.ready = true) ∨ i = .flush ∨ i = .softReset →
    ∃ t, exec i s = .next t ∧ t.block.ready = false ∧
      ∀ off, (off = 0x0010 ∨ off = 0x0014 ∨ (0x1000 ≤ off ∧ off ≤ 0x2010)) → busRead t.params t.block off = 0

/-- R135 (a) and (b): a scan of `q ++ q2` is the scan of `q` continued: after a need-more it goes on from the kept buffer and the
counts add; after a held frame the appended bytes change nothing. -/
def Obligations.PartialInputIdempotence : Prop :=
  ∀ (o : WireOrder) (q q2 : List Byte),
    (∀ k, (scanBytes o q).outcome = .needMore k →
      (scanBytes o (q ++ q2)).q = (scanBytes o ((scanBytes o q).q ++ q2)).q ∧
      (scanBytes o (q ++ q2)).outcome = (scanBytes o ((scanBytes o q).q ++ q2)).outcome ∧
      (scanBytes o (q ++ q2)).mismatches =
        (scanBytes o q).mismatches + (scanBytes o ((scanBytes o q).q ++ q2)).mismatches) ∧
    ((scanBytes o q).outcome = .frameReady →
      (scanBytes o (q ++ q2)).q = (scanBytes o q).q ++ q2 ∧ (scanBytes o (q ++ q2)).outcome = .frameReady ∧
      (scanBytes o (q ++ q2)).mismatches = (scanBytes o q).mismatches)

/-- R135, its consequence: a host that drains after each batch of PUSHes delivers the same frames in the same order and leaves the same
block, however the stream is split into batches, provided no PUSH is rejected. The model bounds the rounds of a drain (log 17). -/
def Obligations.BatchSplitDoesNotMatter : Prop :=
  ∀ (p : Params) (b : Block) (batches batches' : List (List Byte)),
    b.ready = false → b.errOverflow = false → batches ≠ [] → batches' ≠ [] → batches.flatten = batches'.flatten →
    (feedBatches p b batches).2.errOverflow = false → (feedBatches p b batches').2.errOverflow = false →
      feedBatches p b batches = feedBatches p b batches'

/-- R136: in a stream of a valid frame, a frame whose CRC fails and a valid frame, both valid frames are delivered in order and the
corrupted one is not, provided every later 0xD3 of the corrupted frame starts a whole candidate whose CRC fails; the error counter
rises by one plus their number. The model bounds the rounds of the host's drain (log 17). -/
def Obligations.ResyncAfterCorruptedFrame : Prop :=
  ∀ (p : Params) (b : Block) (f1 x f3 : List Byte),
    b.ready = false → b.q = [] → f1.length + x.length + f3.length ≤ p.inbufCap →
    HeldFrame p.wireOrder f1 → f1.length = 6 + frameLen f1 →
    HeldFrame p.wireOrder f3 → f3.length = 6 + frameLen f3 →
    x.head? = some 0xD3 → x.length = 6 + frameLen x → frameValid p.wireOrder x = false →
    (∀ n, 1 ≤ n → n < x.length → byteAt x n = 0xD3 → examine p.wireOrder ((x ++ f3).drop n) = .mismatch) →
      (feedBatch p b (f1 ++ x ++ f3)).1 = [f1, f3] ∧
      (feedBatch p b (f1 ++ x ++ f3)).2.q = [] ∧
      (feedBatch p b (f1 ++ x ++ f3)).2.frameCnt = b.frameCnt + 2 ∧
      (feedBatch p b (f1 ++ x ++ f3)).2.crcErrCnt = b.crcErrCnt + 1 + BitVec.ofNat 32 ((x.drop 1).count 0xD3)

/-- R92, R93: the bus accesses of a host program line, stepped one by one, perform exactly the commands the line stands for, in
order. -/
def Obligations.HostLinesPerformTheirCommands : Prop :=
  (∀ (bytes : List Byte) (n : Nat),
    (HostLine.pushB bytes).commands = bytes.map .push ∧ (HostLine.pushZ n).commands = List.replicate n (.push 0x00) ∧
    (HostLine.crcB bytes).commands = .crcInit :: bytes.map .crcUpdate) ∧
  ∀ (s : State) (l : HostLine) (rest : List HostEvent), l.commands ≠ [] → s.pending = l.events s.params ++ rest →
    Host.Core.run core l.commands.length s = execAll l.commands { s with pending := rest }

/-- R233: in a round the host pushes its waiting and its newly available bytes while FILL < INBUF_CAP and keeps the others; then it
issues SCAN, and POP and SCAN again for each frame found. The round's block is what exactly these commands give, no PUSH is rejected,
the round ends in need-more, and frame number k is what STATUS, FRAME_INFO and FRAME_WIN show after SCAN number k. The model bounds
the rounds of the inner loop (log 17). -/
def Obligations.HostRoundRunsItsCommands : Prop :=
  ∀ (s : State) (waiting arrived : List Byte), s.Inv →
    let bytes := waiting ++ arrived
    let n := min bytes.length (s.params.inbufCap - s.block.q.length)
    let r := HostLoop.round s.params { delivered := [], waiting := waiting, block := s.block } arrived
    let upToScan := fun k : Nat =>
      (bytes.take n).map Instr.push ++ Instr.scan :: (List.replicate k [Instr.pop, Instr.scan]).flatten
    r.waiting = bytes.drop n ∧
    execAll (upToScan r.delivered.length) s = .next { s with block := r.block } ∧
    r.block.ready = false ∧ r.block.needMore = true ∧ r.block.errOverflow = s.block.errOverflow ∧
    ∀ k frame, r.delivered[k]? = some frame →
      ∃ t, execAll (upToScan k) s = .next t ∧
        (busRead t.params t.block 0x0004).getLsbD 0 = true ∧
        frame.length = 6 + ((busRead t.params t.block 0x0010).extractLsb' 0 10).toNat ∧
        ∀ i, i < frame.length → busRead t.params t.block (0x1000 + 4 * i) = (byteAt frame i).setWidth 32

/-- R233 with R135 and R236: however the bytes of a stream become available, the host loop pushes every one of them, without a rejected
PUSH, delivers the frames that one drain of the whole stream delivers, in order, and leaves the block that drain leaves: neither the
split nor the buffer's capacity shows. The model bounds the loop's rounds (log 17). -/
def Obligations.HostLoopLosesNothing : Prop :=
  ∀ (p : Params) (b : Block) (arrivals : List (List Byte)), p.wf = true → b.Inv p → arrivals ≠ [] →
    let r := hostLoop p b arrivals
    r.waiting = [] ∧ r.block.errOverflow = b.errOverflow ∧
      (r.delivered, r.block) = drain p { b with q := b.q ++ arrivals.flatten }
end

