-- ==== Sys2Proof/Laws/State.lean ====
section
/-! SUPPORT. What each update of the state leaves in each field, one lemma a field, so that no later proof unfolds an update. -/

namespace Sys2Proof.Machine

@[simp] theorem State.withBlock_params (s : State) (b : Block) : (s.withBlock b).params = s.params := rfl
@[simp] theorem State.withBlock_block (s : State) (b : Block) : (s.withBlock b).block = b := rfl
@[simp] theorem State.withBlock_pending (s : State) (b : Block) : (s.withBlock b).pending = s.pending := rfl
@[simp] theorem State.withBlock_readLog (s : State) (b : Block) : (s.withBlock b).readLog = s.readLog := rfl
@[simp] theorem State.withBlock_self (s : State) : s.withBlock s.block = s := rfl
@[simp] theorem State.withBlock_withBlock (s : State) (b c : Block) : (s.withBlock b).withBlock c = s.withBlock c := rfl

@[simp] theorem State.resetWith_params (p : Params) : (State.resetWith p).params = p := rfl
@[simp] theorem State.resetWith_block (p : Params) : (State.resetWith p).block = Block.reset := rfl
@[simp] theorem State.resetWith_pending (p : Params) : (State.resetWith p).pending = [] := rfl
@[simp] theorem State.resetWith_readLog (p : Params) : (State.resetWith p).readLog = [] := rfl

@[simp] theorem placeCommand_params (s : State) (w : Word) : (placeCommand s w).params = s.params := rfl
@[simp] theorem placeCommand_block (s : State) (w : Word) : (placeCommand s w).block = s.block := rfl
@[simp] theorem placeCommand_readLog (s : State) (w : Word) : (placeCommand s w).readLog = s.readLog := rfl

@[simp] theorem Block.raiseErr_q (b : Block) (k : ErrorKind) : (b.raiseErr k).q = b.q := by cases k <;> rfl
@[simp] theorem Block.raiseErr_ready (b : Block) (k : ErrorKind) : (b.raiseErr k).ready = b.ready := by cases k <;> rfl
@[simp] theorem Block.raiseErr_needMore (b : Block) (k : ErrorKind) : (b.raiseErr k).needMore = b.needMore := by
  cases k <;> rfl
@[simp] theorem Block.raiseErr_stage (b : Block) (k : ErrorKind) : (b.raiseErr k).stage = b.stage := by cases k <;> rfl
@[simp] theorem Block.raiseErr_crcMatch (b : Block) (k : ErrorKind) : (b.raiseErr k).crcMatch = b.crcMatch := by
  cases k <;> rfl
@[simp] theorem Block.raiseErr_crcAcc (b : Block) (k : ErrorKind) : (b.raiseErr k).crcAcc = b.crcAcc := by
  cases k <;> rfl
@[simp] theorem Block.raiseErr_crcErrCnt (b : Block) (k : ErrorKind) : (b.raiseErr k).crcErrCnt = b.crcErrCnt := by
  cases k <;> rfl
@[simp] theorem Block.raiseErr_frameCnt (b : Block) (k : ErrorKind) : (b.raiseErr k).frameCnt = b.frameCnt := by
  cases k <;> rfl
@[simp] theorem Block.raiseErr_errOverflow (b : Block) (k : ErrorKind) :
    (b.raiseErr k).errOverflow = (b.errOverflow || k == .overflow) := by
  cases k <;> simp [Block.raiseErr]
@[simp] theorem Block.raiseErr_errIllegal (b : Block) (k : ErrorKind) :
    (b.raiseErr k).errIllegal = (b.errIllegal || k == .illegal) := by
  cases k <;> simp [Block.raiseErr]
@[simp] theorem Block.raiseErr_errNoFrame (b : Block) (k : ErrorKind) :
    (b.raiseErr k).errNoFrame = (b.errNoFrame || k == .noFrame) := by
  cases k <;> simp [Block.raiseErr]

@[simp] theorem Block.clearErrors_q (b : Block) : b.clearErrors.q = b.q := rfl
@[simp] theorem Block.clearErrors_ready (b : Block) : b.clearErrors.ready = b.ready := rfl
@[simp] theorem Block.clearErrors_needMore (b : Block) : b.clearErrors.needMore = b.needMore := rfl
@[simp] theorem Block.clearErrors_stage (b : Block) : b.clearErrors.stage = b.stage := rfl
@[simp] theorem Block.clearErrors_errOverflow (b : Block) : b.clearErrors.errOverflow = false := rfl
@[simp] theorem Block.clearErrors_errIllegal (b : Block) : b.clearErrors.errIllegal = false := rfl
@[simp] theorem Block.clearErrors_errNoFrame (b : Block) : b.clearErrors.errNoFrame = false := rfl
@[simp] theorem Block.clearErrors_crcMatch (b : Block) : b.clearErrors.crcMatch = b.crcMatch := rfl
@[simp] theorem Block.clearErrors_crcAcc (b : Block) : b.clearErrors.crcAcc = b.crcAcc := rfl
@[simp] theorem Block.clearErrors_crcErrCnt (b : Block) : b.clearErrors.crcErrCnt = b.crcErrCnt := rfl
@[simp] theorem Block.clearErrors_frameCnt (b : Block) : b.clearErrors.frameCnt = b.frameCnt := rfl

@[simp] theorem Block.discardInput_q (b : Block) : b.discardInput.q = [] := rfl
@[simp] theorem Block.discardInput_ready (b : Block) : b.discardInput.ready = false := rfl
@[simp] theorem Block.discardInput_needMore (b : Block) : b.discardInput.needMore = false := rfl
@[simp] theorem Block.discardInput_stage (b : Block) : b.discardInput.stage = .none := rfl

@[simp] theorem Block.endNeedMore_q (b : Block) (q : List Byte) (k : Stage) : (b.endNeedMore q k).q = q := rfl
@[simp] theorem Block.endNeedMore_ready (b : Block) (q : List Byte) (k : Stage) :
    (b.endNeedMore q k).ready = b.ready := rfl
@[simp] theorem Block.endNeedMore_needMore (b : Block) (q : List Byte) (k : Stage) :
    (b.endNeedMore q k).needMore = true := rfl
@[simp] theorem Block.endNeedMore_stage (b : Block) (q : List Byte) (k : Stage) : (b.endNeedMore q k).stage = k := rfl
@[simp] theorem Block.endNeedMore_frameCnt (b : Block) (q : List Byte) (k : Stage) :
    (b.endNeedMore q k).frameCnt = b.frameCnt := rfl
@[simp] theorem Block.endNeedMore_crcErrCnt (b : Block) (q : List Byte) (k : Stage) :
    (b.endNeedMore q k).crcErrCnt = b.crcErrCnt := rfl

@[simp] theorem Block.endFrameReady_q (b : Block) (q : List Byte) : (b.endFrameReady q).q = q := rfl
@[simp] theorem Block.endFrameReady_ready (b : Block) (q : List Byte) : (b.endFrameReady q).ready = true := rfl
@[simp] theorem Block.endFrameReady_needMore (b : Block) (q : List Byte) : (b.endFrameReady q).needMore = false := rfl
@[simp] theorem Block.endFrameReady_stage (b : Block) (q : List Byte) : (b.endFrameReady q).stage = .none := rfl
@[simp] theorem Block.endFrameReady_frameCnt (b : Block) (q : List Byte) :
    (b.endFrameReady q).frameCnt = b.frameCnt + 1 := rfl
@[simp] theorem Block.endFrameReady_crcErrCnt (b : Block) (q : List Byte) :
    (b.endFrameReady q).crcErrCnt = b.crcErrCnt := rfl

@[simp] theorem Block.countMismatches_q (b : Block) (n : Nat) : (b.countMismatches n).q = b.q := rfl
@[simp] theorem Block.countMismatches_ready (b : Block) (n : Nat) : (b.countMismatches n).ready = b.ready := rfl
@[simp] theorem Block.countMismatches_needMore (b : Block) (n : Nat) : (b.countMismatches n).needMore = b.needMore := rfl
@[simp] theorem Block.countMismatches_stage (b : Block) (n : Nat) : (b.countMismatches n).stage = b.stage := rfl
@[simp] theorem Block.countMismatches_frameCnt (b : Block) (n : Nat) : (b.countMismatches n).frameCnt = b.frameCnt := rfl
@[simp] theorem Block.countMismatches_crcErrCnt (b : Block) (n : Nat) :
    (b.countMismatches n).crcErrCnt = b.crcErrCnt + BitVec.ofNat 32 n := rfl
@[simp] theorem Block.countMismatches_zero (b : Block) : b.countMismatches 0 = b := by
  simp [Block.countMismatches]
@[simp] theorem Block.countMismatches_add (b : Block) (m n : Nat) :
    (b.countMismatches m).countMismatches n = b.countMismatches (m + n) := by
  simp [Block.countMismatches, BitVec.ofNat_add, BitVec.add_assoc]

@[simp] theorem ScanResult.afterMismatch_q (r : ScanResult) : r.afterMismatch.q = r.q := rfl
@[simp] theorem ScanResult.afterMismatch_outcome (r : ScanResult) : r.afterMismatch.outcome = r.outcome := rfl
@[simp] theorem ScanResult.afterMismatch_mismatches (r : ScanResult) :
    r.afterMismatch.mismatches = r.mismatches + 1 := rfl

end Sys2Proof.Machine
end

