-- ==== Sys2Proof/Laws/Scan.lean ====
section
/-! SUPPORT. What the stages of a scan and the buffer operations can do (41_frame_scanner.md), said once for each. -/

namespace Sys2Proof.Machine

/-! ### Reading the head of a buffer that goes on -/

theorem byteAt_append {q : List Byte} {i : Nat} (h : i < q.length) (r : List Byte) : byteAt (q ++ r) i = byteAt q i := by
  simp [byteAt, List.getD_eq_getElem?_getD, List.getElem?_append_left h]

theorem frameLen_append {q : List Byte} (h : 3 ≤ q.length) (r : List Byte) : frameLen (q ++ r) = frameLen q := by
  simp only [frameLen, lenField, byteAt_append (show 1 < q.length by omega), byteAt_append (show 2 < q.length by omega)]

theorem frameLen_le (q : List Byte) : frameLen q ≤ 1023 := by
  have := (lenField q).isLt
  simp only [frameLen]
  omega

theorem frameBytes_eq (q : List Byte) : frameBytes q = 6 + frameLen q := by
  simp only [frameBytes, hdrBytes, crcByteCount]
  omega

theorem frameValid_append {o : WireOrder} {q : List Byte} (h : 6 + frameLen q ≤ q.length) (r : List Byte) :
    frameValid o (q ++ r) = frameValid o q := by
  have hl := frameLen_append (q := q) (by omega) r
  simp only [frameValid, coveredBytes, transmittedCrc, hl, hdrBytes,
    byteAt_append (show 3 + frameLen q < q.length by omega), byteAt_append (show 4 + frameLen q < q.length by omega),
    byteAt_append (show 5 + frameLen q < q.length by omega)]
  rw [List.take_append_of_le_length (by omega)]

/-- `validate` as R126 writes it. -/
theorem frameValid_iff (o : WireOrder) (q : List Byte) :
    frameValid o q = true ↔
      crcBytes o (crc24q (q.take (3 + frameLen q))) =
        (byteAt q (3 + frameLen q), byteAt q (4 + frameLen q), byteAt q (5 + frameLen q)) := decide_eq_true_iff

/-! ### The stages after SEEK_PREAMBLE -/

/-- Everything `examine` can say (R123 to R126). -/
theorem examine_cases (o : WireOrder) (q : List Byte) :
    (examine o q = .needMore .readLength ∧ q.length < 3) ∨
    (examine o q = .needMore .readPayload ∧ 3 ≤ q.length ∧ q.length < 3 + frameLen q) ∨
    (examine o q = .needMore .readCrc ∧ 3 + frameLen q ≤ q.length ∧ q.length < 6 + frameLen q) ∨
    (examine o q = .frameReady ∧ 6 + frameLen q ≤ q.length ∧ frameValid o q = true) ∨
    (examine o q = .mismatch ∧ 6 + frameLen q ≤ q.length ∧ frameValid o q = false) := by
  unfold examine
  split
  · exact .inl ⟨rfl, ‹_›⟩
  · split
    · exact .inr (.inl ⟨rfl, by omega, ‹_›⟩)
    · split
      · exact .inr (.inr (.inl ⟨rfl, by omega, ‹_›⟩))
      · cases h : frameValid o q
        · exact .inr (.inr (.inr (.inr ⟨by simp, by omega, rfl⟩)))
        · exact .inr (.inr (.inr (.inl ⟨by simp, by omega, rfl⟩)))

/-- A candidate whose bytes are all there is judged by its CRC (R126). -/
theorem examine_whole {o : WireOrder} {q : List Byte} (h : 6 + frameLen q ≤ q.length) :
    examine o q = if frameValid o q then .frameReady else .mismatch := by
  rw [examine, if_neg (by omega), if_neg (by omega), if_neg (by omega)]

/-- A candidate that is whole is judged the same, whatever follows it. -/
theorem examine_append {o : WireOrder} {q : List Byte} (h : 6 + frameLen q ≤ q.length) (r : List Byte) :
    examine o (q ++ r) = examine o q := by
  have h' : 6 + frameLen (q ++ r) ≤ (q ++ r).length := by
    rw [frameLen_append (by omega), List.length_append]
    omega
  rw [examine_whole h, examine_whole h', frameValid_append h]

/-! ### The scan -/

@[simp] theorem scanBytes_nil (o : WireOrder) : scanBytes o [] = ⟨[], .needMore .seekPreamble, 0⟩ := rfl

theorem scanBytes_skip (o : WireOrder) {x : Byte} (h : x ≠ preamble) (rest : List Byte) :
    scanBytes o (x :: rest) = scanBytes o rest := by
  rw [scanBytes, if_neg h]

theorem scanBytes_needMore {o : WireOrder} {rest : List Byte} {k : Stage}
    (h : examine o (preamble :: rest) = .needMore k) :
    scanBytes o (preamble :: rest) = ⟨preamble :: rest, .needMore k, 0⟩ := by
  rw [scanBytes, if_pos rfl, h]

theorem scanBytes_frameReady {o : WireOrder} {rest : List Byte} (h : examine o (preamble :: rest) = .frameReady) :
    scanBytes o (preamble :: rest) = ⟨preamble :: rest, .frameReady, 0⟩ := by
  rw [scanBytes, if_pos rfl, h]

theorem scanBytes_mismatch {o : WireOrder} {rest : List Byte} (h : examine o (preamble :: rest) = .mismatch) :
    scanBytes o (preamble :: rest) = (scanBytes o rest).afterMismatch := by
  rw [scanBytes, if_pos rfl, h]

/-- Bytes without a preamble are skipped (R122). -/
theorem scanBytes_skipAll (o : WireOrder) {garbage : List Byte} (h : ∀ x ∈ garbage, x ≠ preamble) (rest : List Byte) :
    scanBytes o (garbage ++ rest) = scanBytes o rest := by
  induction garbage with
  | nil => rfl
  | cons x xs ih =>
    rw [List.cons_append, scanBytes_skip o (h x (by simp)), ih fun y hy => h y (by simp [hy])]

/-- Everything a scan can answer: how its final buffer stands, and that it dropped bytes from the head only, at least one for each
mismatch. -/
theorem scanBytes_spec (o : WireOrder) (q : List Byte) :
    (∃ k, (scanBytes o q).mismatches ≤ k ∧ k ≤ q.length ∧ (scanBytes o q).q = q.drop k) ∧
    ((∃ k, k ≠ .none ∧ (scanBytes o q).outcome = .needMore k ∧ waitsAt (scanBytes o q).q k) ∨
      ((scanBytes o q).outcome = .frameReady ∧ HeldFrame o (scanBytes o q).q)) := by
  induction q with
  | nil => exact ⟨⟨0, by simp⟩, .inl ⟨.seekPreamble, by simp, rfl, rfl⟩⟩
  | cons x rest ih =>
    obtain ⟨⟨k, hm, hk, hq⟩, hout⟩ := ih
    by_cases hx : x = preamble
    · subst hx
      rcases examine_cases o (preamble :: rest) with ⟨h, h1⟩ | ⟨h, h1, h2⟩ | ⟨h, h1, h2⟩ | ⟨h, h1, h2⟩ | ⟨h, -, -⟩
      · rw [scanBytes_needMore h]
        exact ⟨⟨0, by simp⟩, .inl ⟨_, by simp, rfl, rfl, h1⟩⟩
      · rw [scanBytes_needMore h]
        exact ⟨⟨0, by simp⟩, .inl ⟨_, by simp, rfl, rfl, h1, h2⟩⟩
      · rw [scanBytes_needMore h]
        exact ⟨⟨0, by simp⟩, .inl ⟨_, by simp, rfl, rfl, h1, h2⟩⟩
      · rw [scanBytes_frameReady h]
        exact ⟨⟨0, by simp⟩, .inr ⟨rfl, rfl, h1, h2⟩⟩
      · rw [scanBytes_mismatch h]
        refine ⟨⟨k + 1, by simp; omega, by simp; omega, by simpa using hq⟩, hout⟩
    · rw [scanBytes_skip o hx]
      exact ⟨⟨k + 1, by omega, by simp; omega, by simpa using hq⟩, hout⟩

/-! ### The operations on the block -/

/-- Everything PUSH can do (R120). -/
theorem Block.pushByte_cases (p : Params) (b : Block) (x : Byte) :
    (b.q.length = p.inbufCap ∧ b.pushByte p x = b.raiseErr .overflow) ∨
    (b.q.length ≠ p.inbufCap ∧ b.pushByte p x = { b with q := b.q ++ [x], needMore := false, stage := .none }) := by
  unfold Block.pushByte
  split
  · exact .inl ⟨‹_›, rfl⟩
  · exact .inr ⟨‹_›, rfl⟩

/-- Everything POP can do (R132). -/
theorem Block.popFrame_cases (b : Block) :
    (b.ready = false ∧ b.popFrame = b.raiseErr .noFrame) ∨
    (b.ready = true ∧ b.popFrame = { b with q := b.q.drop (6 + frameLen b.q), ready := false }) := by
  unfold Block.popFrame
  cases h : b.ready
  · exact .inl ⟨rfl, rfl⟩
  · exact .inr ⟨rfl, by rw [if_pos rfl, frameBytes_eq]⟩

/-- Everything SCAN can do (R121): a no-op, a need-more outcome or a frame, each with how the final buffer stands. -/
theorem Block.scan_cases (o : WireOrder) (b : Block) :
    (b.ready = true ∧ b.scan o = b) ∨
    (b.ready = false ∧ ∃ k, k ≠ .none ∧ waitsAt (scanBytes o b.q).q k ∧
      b.scan o = (b.countMismatches (scanBytes o b.q).mismatches).endNeedMore (scanBytes o b.q).q k) ∨
    (b.ready = false ∧ HeldFrame o (scanBytes o b.q).q ∧
      b.scan o = (b.countMismatches (scanBytes o b.q).mismatches).endFrameReady (scanBytes o b.q).q) := by
  unfold Block.scan
  cases h : b.ready
  · rw [if_neg (by simp)]
    rcases (scanBytes_spec o b.q).2 with ⟨k, hk, ho, hw⟩ | ⟨ho, hf⟩
    · exact .inr (.inl ⟨rfl, k, hk, hw, by rw [Block.applyScan, ho]⟩)
    · exact .inr (.inr ⟨rfl, hf, by rw [Block.applyScan, ho]⟩)
  · exact .inl ⟨rfl, rfl⟩

end Sys2Proof.Machine
end

