-- ==== Sys2Proof/Laws/Bus.lean ====
section
/-! SUPPORT. What decoding, a bus access and a step can do (20_memory.md, 30_encoding.md), said once for each. -/

namespace Sys2Proof.Machine

/-! ### Commands -/

/-- Every command answers a next state in every state, and changes the block only (R200, R201). -/
theorem exec_next (i : Instr) (s : State) : ∃ b, exec i s = .next (s.withBlock b) := by
  cases i
  case nop => exact ⟨s.block, rfl⟩
  all_goals exact ⟨_, rfl⟩

theorem performWord_command {w : Word} {i : Instr} (h : decode w = .command i) (s : State) :
    performWord w s = exec i s := by
  rw [performWord, h]

theorem performWord_illegal {w : Word} {r : IllegalReason} (h : decode w = .illegal r) (s : State) :
    performWord w s = .next (s.withBlock (s.block.raiseErr .illegal)) := by
  rw [performWord, h]
  rfl

/-- Performing any word answers a next state and changes the block only (R82, R173). -/
theorem performWord_next (w : Word) (s : State) : ∃ b, performWord w s = .next (s.withBlock b) := by
  cases h : decode w with
  | command i => rw [performWord_command h]; exact exec_next i s
  | illegal r => rw [performWord_illegal h]; exact ⟨_, rfl⟩

@[simp] theorem execAll_nil (s : State) : execAll [] s = .next s := rfl

theorem execAll_cons {i : Instr} {s t : State} (h : exec i s = .next t) (is : List Instr) :
    execAll (i :: is) s = execAll is t := by
  rw [execAll, h]

/-! ### Accesses -/

theorem accessOffset_aligned (p : Params) {off : Nat} (h : off < 0x4000) (h4 : off % 4 = 0) :
    accessOffset p .w32 (p.baseAddr + off) = .next off := by
  rw [accessOffset, if_neg (by simp only [apertureBytes]; omega), if_neg (by simp), Nat.add_sub_cancel_left,
    if_neg (by omega)]

/-- Everything an access can be (R31, R60, R64). -/
theorem accessOffset_cases (p : Params) (width : AccessWidth) (addr : Nat) :
    (accessOffset p width addr = .fault .outsideAperture ∧ (addr < p.baseAddr ∨ p.baseAddr + 0x4000 ≤ addr)) ∨
    (accessOffset p width addr = .refused .subWordAccess ∧ width ≠ .w32) ∨
    (accessOffset p width addr = .refused .misalignedAccess ∧ (addr - p.baseAddr) % 4 ≠ 0) ∨
    (∃ off, accessOffset p width addr = .next off ∧ off < 0x4000 ∧ off % 4 = 0 ∧ width = .w32 ∧
      addr = p.baseAddr + off) := by
  unfold accessOffset
  split
  · exact .inl ⟨rfl, ‹_›⟩
  · split
    · exact .inr (.inl ⟨rfl, ‹_›⟩)
    · split
      · exact .inr (.inr (.inl ⟨rfl, ‹_›⟩))
      · rename_i ha hw h4
        simp only [apertureBytes] at ha
        exact .inr (.inr (.inr ⟨_, rfl, by omega, by omega, Decidable.not_not.mp hw, by omega⟩))

theorem performRead_aligned (s : State) {off : Nat} (h : off < 0x4000) (h4 : off % 4 = 0) :
    performRead .w32 (s.params.baseAddr + off) s =
      .next { s with readLog := s.readLog ++ [busRead s.params s.block off] } := by
  rw [performRead, accessOffset_aligned _ h h4]

theorem performWrite_cmd (s : State) (w : Word) : performWrite .w32 (s.params.baseAddr + 0) w s = performWord w s := by
  rw [performWrite, accessOffset_aligned _ (by omega) (by omega)]
  rfl

theorem performWrite_ignored (s : State) {off : Nat} (h : off < 0x4000) (h4 : off % 4 = 0) (h0 : off ≠ 0) (w : Word) :
    performWrite .w32 (s.params.baseAddr + off) w s = .next s := by
  rw [performWrite, accessOffset_aligned _ h h4]
  exact if_neg h0

/-! ### Steps -/

theorem step_nil {s : State} (h : s.pending = []) : step s = .refused .hostProgramEnded := by
  rw [step, hostStep, h]

theorem step_cons {s : State} {e : HostEvent} {rest : List HostEvent} (h : s.pending = e :: rest) :
    step s = performEvent e { s with pending := rest } := by
  rw [step, hostStep, h]

/-- A step that answers a next state performed the host's next event, and changed nothing but the block, the program and the log:
a reset, a read of a mapped or unmapped offset, a command word, or an ignored write. -/
theorem step_next_cases {s t : State} (h : step s = .next t) :
    ∃ e rest, s.pending = e :: rest ∧
      ((∃ src, e = .reset src ∧ t = { s with pending := rest, block := Block.reset }) ∨
      (∃ off, off < 0x4000 ∧ off % 4 = 0 ∧ e = .read .w32 (s.params.baseAddr + off) ∧
        t = { s with pending := rest, readLog := s.readLog ++ [busRead s.params s.block off] }) ∨
      (∃ off d, off < 0x4000 ∧ off % 4 = 0 ∧ off ≠ 0 ∧ e = .write .w32 (s.params.baseAddr + off) d ∧
        t = { s with pending := rest }) ∨
      (∃ w, e = .write .w32 s.params.baseAddr w ∧ performWord w { s with pending := rest } = .next t)) := by
  cases hp : s.pending with
  | nil => rw [step_nil hp] at h; exact absurd h (by simp)
  | cons e rest =>
    rw [step_cons hp] at h
    refine ⟨e, rest, rfl, ?_⟩
    cases e with
    | reset src =>
      exact .inl ⟨src, rfl, by simpa [performEvent, performReset, State.withBlock] using h.symm⟩
    | read width addr =>
      rcases accessOffset_cases s.params width addr with ⟨ha, -⟩ | ⟨ha, -⟩ | ⟨ha, -⟩ | ⟨off, ha, h1, h2, rfl, rfl⟩ <;>
        simp only [performEvent, performRead, ha] at h
      · exact nomatch h
      · exact nomatch h
      · exact nomatch h
      · exact .inr (.inl ⟨off, h1, h2, rfl, by simpa using h.symm⟩)
    | write width addr d =>
      rcases accessOffset_cases s.params width addr with ⟨ha, -⟩ | ⟨ha, -⟩ | ⟨ha, -⟩ | ⟨off, ha, h1, h2, rfl, rfl⟩ <;>
        simp only [performEvent, performWrite, ha] at h
      · exact nomatch h
      · exact nomatch h
      · exact nomatch h
      · by_cases h0 : off = 0
        · subst h0
          rw [if_pos (show 0 = Reg.cmd.offset from rfl)] at h
          exact .inr (.inr (.inr ⟨d, rfl, h⟩))
        · rw [if_neg (show ¬ off = Reg.cmd.offset from h0)] at h
          exact .inr (.inr (.inl ⟨off, d, h1, h2, h0, rfl, by simpa using h.symm⟩))

/-- No step changes the parameters (R35). -/
theorem step_params {s t : State} (h : step s = .next t) : t.params = s.params := by
  obtain ⟨e, rest, -, ⟨_, -, rfl⟩ | ⟨_, -, -, -, rfl⟩ | ⟨_, _, -, -, -, -, rfl⟩ | ⟨w, -, hw⟩⟩ := step_next_cases h
  · rfl
  · rfl
  · rfl
  · obtain ⟨b, hb⟩ := performWord_next w { s with pending := rest }
    rw [hb] at hw
    simp only [Host.Outcome.next.injEq] at hw
    rw [← hw]
    rfl

/-- A run of a machine, one step at a time. -/
theorem run_step (M : Host.Core) {s t : M.State} (h : M.step s = .next t) (n : Nat) : M.run (n + 1) s = M.run n t := by
  rw [Host.Core.run, h]

theorem run_cons {s t : State} (h : step s = .next t) (n : Nat) :
    Host.Core.run Sys2Proof.core (n + 1) s = Host.Core.run Sys2Proof.core n t :=
  run_step Sys2Proof.core h n

@[simp] theorem run_zero (s : State) : Host.Core.run Sys2Proof.core 0 s = .next s := rfl

/-! ### The register map -/

theorem regAt_frameWin {i : Nat} (h : i ≤ 1028) : regAt (0x1000 + 4 * i) = some (.frameWin i) := by
  unfold regAt
  split <;> first | omega | skip
  rw [if_pos (by omega), Nat.add_sub_cancel_left, Nat.mul_div_cancel_left _ (by omega)]

/-- An offset that R31 does not list has no register. -/
theorem regAt_unmapped {off : Nat} (h4 : off % 4 = 0) (hlo : 0x0020 < off) (hwin : ¬ (0x1000 ≤ off ∧ off ≤ 0x2010)) :
    regAt off = none := by
  unfold regAt
  split <;> first | omega | skip
  rw [if_neg (by omega)]

/-- Reading a listed register's offset reads that register, for every register of R31. -/
theorem busRead_offset (p : Params) (b : Block) (r : Reg) (h : ∀ i, r = .frameWin i → i ≤ 1028) :
    busRead p b r.offset = readReg p b r := by
  cases r
  case frameWin i => rw [busRead, Reg.offset, regAt_frameWin (h i rfl)]
  all_goals rfl

end Sys2Proof.Machine
end

