-- ==== Sys2Proof/Laws/Crc.lean ====
section
/-! SUPPORT. The algebra of one CRC step, which the laws of the whole-buffer CRC rest on (40_crc24q.md section 3). -/

namespace Sys2Proof.Machine

theorem crcShift_getLsbD (r : Crc) (k : Nat) (hk : k < 24) :
    (crcShift r).getLsbD k = ((decide (0 < k) && r.getLsbD (k - 1)) ^^ (r.getLsbD 23 && crcFeedback.getLsbD k)) := by
  have shifted : (r <<< 1).getLsbD k = (decide (0 < k) && r.getLsbD (k - 1)) := by
    rw [BitVec.getLsbD_shiftLeft]
    rcases Nat.eq_zero_or_pos k with rfl | hp
    · simp
    · simp [hk, hp, show ¬ k < 1 by omega]
  unfold crcShift
  cases r.getLsbD 23
  · simp only [Bool.false_eq_true, if_false, shifted, Bool.false_and, Bool.xor_false]
  · simp only [if_true, BitVec.getLsbD_xor, shifted, Bool.true_and]

theorem crcShift_xor (a b : Crc) : crcShift (a ^^^ b) = crcShift a ^^^ crcShift b := by
  apply BitVec.eq_of_getLsbD_eq
  intro k hk
  rw [BitVec.getLsbD_xor, crcShift_getLsbD _ _ hk, crcShift_getLsbD _ _ hk, crcShift_getLsbD _ _ hk]
  simp only [BitVec.getLsbD_xor]
  cases a.getLsbD (k - 1) <;> cases b.getLsbD (k - 1) <;> cases a.getLsbD 23 <;> cases b.getLsbD 23 <;>
    cases crcFeedback.getLsbD k <;> cases decide (0 < k) <;> rfl

@[simp] theorem crcShift_zero : crcShift 0 = 0 := rfl

/-- G has the constant term 1, so a shift loses nothing. -/
theorem crcShift_eq_zero {r : Crc} (h : crcShift r = 0) : r = 0 := by
  have bit : ∀ k, k < 24 → (crcShift r).getLsbD k = false := by
    intro k _
    rw [h]
    exact BitVec.getLsbD_zero
  have top : r.getLsbD 23 = false := by
    have h0 := bit 0 (by omega)
    have hf : crcFeedback.getLsbD 0 = true := by decide
    rwa [crcShift_getLsbD _ _ (by omega), hf, Bool.and_true, decide_eq_false (by omega), Bool.false_and,
      Bool.false_xor] at h0
  apply BitVec.eq_of_getLsbD_eq
  intro k hk
  rw [show (0 : Crc).getLsbD k = false from BitVec.getLsbD_zero]
  rcases Nat.lt_or_ge k 23 with hlt | hge
  · have hk1 := bit (k + 1) (by omega)
    rwa [crcShift_getLsbD _ _ (by omega), top, Bool.false_and, Bool.xor_false, decide_eq_true (by omega),
      Bool.true_and, Nat.add_sub_cancel] at hk1
  · obtain rfl : k = 23 := by omega
    exact top

theorem crcShifts_xor (n : Nat) (a b : Crc) : crcShifts n (a ^^^ b) = crcShifts n a ^^^ crcShifts n b := by
  induction n generalizing a b with
  | zero => rfl
  | succ n ih => rw [crcShifts, crcShift_xor, ih]; rfl

@[simp] theorem crcShifts_zero (n : Nat) : crcShifts n 0 = 0 := by
  induction n with
  | zero => rfl
  | succ n ih => rw [crcShifts, crcShift_zero, ih]

theorem crcShifts_eq_zero {n : Nat} {r : Crc} (h : crcShifts n r = 0) : r = 0 := by
  induction n generalizing r with
  | zero => exact h
  | succ n ih => exact crcShift_eq_zero (ih h)

/-- A step is linear in the accumulator and the byte together. -/
theorem crcStep_xor (a b : Crc) (x y : Byte) : crcStep (a ^^^ b) (x ^^^ y) = crcStep a x ^^^ crcStep b y := by
  have swap : ∀ c d e f : Crc, (c ^^^ d) ^^^ (e ^^^ f) = (c ^^^ e) ^^^ (d ^^^ f) := by
    intro c d e f
    ac_rfl
  rw [crcStep, BitVec.setWidth_xor, BitVec.shiftLeft_xor_distrib, swap, crcShifts_xor, ← crcStep, ← crcStep]

@[simp] theorem crcStep_zero_zero : crcStep 0 0 = 0 := by decide +kernel

@[simp] theorem crc24q_nil : crc24q [] = 0 := rfl

theorem crc24q_append (a b : List Byte) : crc24q (a ++ b) = b.foldl crcStep (crc24q a) := by
  simp [crc24q, List.foldl_append]

theorem crcBytes_join (c : Crc) : c.extractLsb' 16 8 ++ c.extractLsb' 8 8 ++ c.extractLsb' 0 8 = c := by
  apply BitVec.eq_of_getLsbD_eq
  intro k hk
  rw [BitVec.getLsbD_append, BitVec.getLsbD_append]
  split
  · rename_i h
    simp [h]
  · split
    · rename_i h h'
      rw [BitVec.getLsbD_extractLsb', decide_eq_true h', Bool.true_and]
      congr 1
      omega
    · rw [BitVec.getLsbD_extractLsb', decide_eq_true (by omega), Bool.true_and]
      congr 1
      omega

theorem crcBytes_injective (o : WireOrder) {c d : Crc} (h : crcBytes o c = crcBytes o d) : c = d := by
  cases o <;> simp only [crcBytes, Prod.mk.injEq] at h <;>
    rw [← crcBytes_join c, ← crcBytes_join d, h.1, h.2.1, h.2.2]

theorem crcMatches_iff (o : WireOrder) (c : Crc) (t : Byte × Byte × Byte) :
    crcMatches o c t = true ↔ crcBytes o c = t := decide_eq_true_iff

end Sys2Proof.Machine
end

