-- ==== Sys2Proof/Laws/Encoding.lean ====
section
/-! SUPPORT. The fields of a command word as numbers (30_encoding.md R80), for the proofs about encoding and decoding. -/

namespace Sys2Proof

theorem append_toNat {m n : Nat} (x : BitVec m) (y : BitVec n) : (x ++ y).toNat = x.toNat * 2 ^ n + y.toNat := by
  rw [BitVec.toNat_append, ← Nat.shiftLeft_add_eq_or_of_lt y.isLt, Nat.shiftLeft_eq]

theorem encodeFormN_toNat (op : BitVec 4) : (encodeFormN op).toNat = op.toNat * 2 ^ 28 :=
  (append_toNat op (0 : BitVec 28)).trans (by simp)

theorem encodeFormB_toNat (op : BitVec 4) (b : Byte) : (encodeFormB op b).toNat = op.toNat * 2 ^ 28 + b.toNat := by
  refine (append_toNat (op ++ (0 : BitVec 20)) b).trans ?_
  rw [append_toNat, show (0 : BitVec 20).toNat = 0 from rfl]
  omega

theorem encodeFormT_toNat (op : BitVec 4) (t0 t1 t2 : Byte) :
    (encodeFormT op t0 t1 t2).toNat = op.toNat * 2 ^ 28 + t0.toNat * 2 ^ 16 + t1.toNat * 2 ^ 8 + t2.toNat := by
  refine (append_toNat (op ++ (0 : BitVec 4) ++ t0 ++ t1) t2).trans ?_
  rw [append_toNat, append_toNat, append_toNat, show (0 : BitVec 4).toNat = 0 from rfl]
  omega

/-- A field of a word as a number. -/
theorem field_toNat (w : Word) (lo n : Nat) : (w.extractLsb' lo n).toNat = w.toNat / 2 ^ lo % 2 ^ n := by
  rw [BitVec.extractLsb'_toNat, Nat.shiftRight_eq_div_pow]

/-- A word is the sum of its operation and its argument, and of its fields in either way of cutting them. -/
theorem word_toNat (w : Word) :
    w.toNat = (w.extractLsb' 28 4).toNat * 2 ^ 28 + (w.extractLsb' 0 28).toNat ∧
    (w.extractLsb' 0 28).toNat = (w.extractLsb' 8 20).toNat * 2 ^ 8 + (w.extractLsb' 0 8).toNat ∧
    (w.extractLsb' 0 28).toNat = (w.extractLsb' 24 4).toNat * 2 ^ 24 + (w.extractLsb' 16 8).toNat * 2 ^ 16 +
      (w.extractLsb' 8 8).toNat * 2 ^ 8 + (w.extractLsb' 0 8).toNat := by
  have := w.isLt
  simp only [field_toNat]
  omega

/-- Masking off the low `n` bits keeps the rest of the word. -/
theorem word_mask_toNat (w : Word) (n : Nat) :
    (w &&& ~~~ (BitVec.ofNat 32 (2 ^ n - 1))).toNat = w.toNat / 2 ^ n * 2 ^ n := by
  have high : w &&& ~~~ (BitVec.ofNat 32 (2 ^ n - 1)) = (w >>> n) <<< n := by
    apply BitVec.eq_of_getLsbD_eq
    intro k hk
    have low : (BitVec.ofNat 32 (2 ^ n - 1)).getLsbD k = decide (k < n) := by
      rw [BitVec.getLsbD_ofNat, Nat.testBit_two_pow_sub_one]
      simp [hk]
    rw [BitVec.getLsbD_and, BitVec.getLsbD_not, low, BitVec.getLsbD_shiftLeft, BitVec.getLsbD_ushiftRight]
    by_cases h : k < n
    · simp [h]
    · simp [h, hk, show n + (k - n) = k by omega]
  rw [high, BitVec.toNat_shiftLeft, BitVec.toNat_ushiftRight, Nat.shiftRight_eq_div_pow, Nat.shiftLeft_eq]
  apply Nat.mod_eq_of_lt
  exact Nat.lt_of_le_of_lt (Nat.div_mul_le_self _ _) w.isLt

/-- A field is 0 when it is 0 as a number. -/
theorem field_eq_zero (w : Word) (lo n : Nat) : w.extractLsb' lo n = 0 ↔ (w.extractLsb' lo n).toNat = 0 := by
  constructor
  · intro h; rw [h]; rfl
  · intro h; apply BitVec.eq_of_toNat_eq; simpa using h

/-- Everything `decode` can answer, by the operation and the must-be-zero fields (R81 to R83). -/
theorem decode_cases (w : Word) :
    let op := (w.extractLsb' 28 4).toNat
    let z28 := w.extractLsb' 0 28 = 0
    let z20 := w.extractLsb' 8 20 = 0
    let z4 := w.extractLsb' 24 4 = 0
    (op = 0 ∧ z28 ∧ decode w = .command .nop) ∨
    (op = 1 ∧ z20 ∧ decode w = .command (.push (w.extractLsb' 0 8))) ∨
    (op = 2 ∧ z28 ∧ decode w = .command .scan) ∨
    (op = 3 ∧ z28 ∧ decode w = .command .pop) ∨
    (op = 4 ∧ z28 ∧ decode w = .command .crcInit) ∨
    (op = 5 ∧ z20 ∧ decode w = .command (.crcUpdate (w.extractLsb' 0 8))) ∨
    (op = 6 ∧ z4 ∧ decode w = .command (.crcCheck (w.extractLsb' 16 8) (w.extractLsb' 8 8) (w.extractLsb' 0 8))) ∨
    (op = 7 ∧ z28 ∧ decode w = .command .clearErr) ∨
    (op = 8 ∧ z28 ∧ decode w = .command .flush) ∨
    (op = 15 ∧ z28 ∧ decode w = .command .softReset) ∨
    (((9 ≤ op ∧ op ≤ 14) ∨ (op ∈ [1, 5] ∧ ¬ z20) ∨ (op = 6 ∧ ¬ z4) ∨ (op ∈ [0, 2, 3, 4, 7, 8, 15] ∧ ¬ z28)) ∧
      ∃ r, decode w = .illegal r) := by
  intro op z28 z20 z4
  have hd : decode w = match op with
      | 0x0 => decodeFormN w .nop
      | 0x1 => decodeFormB w .push
      | 0x2 => decodeFormN w .scan
      | 0x3 => decodeFormN w .pop
      | 0x4 => decodeFormN w .crcInit
      | 0x5 => decodeFormB w .crcUpdate
      | 0x6 => decodeFormT w .crcCheck
      | 0x7 => decodeFormN w .clearErr
      | 0x8 => decodeFormN w .flush
      | 0xF => decodeFormN w .softReset
      | _ => .illegal .reservedOp := rfl
  have hop : op < 16 := (w.extractLsb' 28 4).isLt
  have hN : ∀ i, (z28 ∧ decodeFormN w i = .command i) ∨ (¬ z28 ∧ decodeFormN w i = .illegal .mustBeZero) := by
    intro i
    by_cases h : z28
    · exact .inl ⟨h, if_pos h⟩
    · exact .inr ⟨h, if_neg h⟩
  have hB : ∀ f, (z20 ∧ decodeFormB w f = .command (f (w.extractLsb' 0 8))) ∨
      (¬ z20 ∧ decodeFormB w f = .illegal .mustBeZero) := by
    intro f
    by_cases h : z20
    · exact .inl ⟨h, if_pos h⟩
    · exact .inr ⟨h, if_neg h⟩
  have hT : ∀ f, (z4 ∧ decodeFormT w f = .command (f (w.extractLsb' 16 8) (w.extractLsb' 8 8) (w.extractLsb' 0 8))) ∨
      (¬ z4 ∧ decodeFormT w f = .illegal .mustBeZero) := by
    intro f
    by_cases h : z4
    · exact .inl ⟨h, if_pos h⟩
    · exact .inr ⟨h, if_neg h⟩
  generalize decode w = d at *
  generalize decodeFormN w = fN at *
  generalize decodeFormB w = fB at *
  generalize decodeFormT w = fT at *
  clear_value op z28 z20 z4
  interval_cases op <;> simp only at hd <;> subst hd
  all_goals first
    | (rcases hN _ with ⟨h, e⟩ | ⟨h, e⟩ <;> rw [e] <;> simp [h])
    | (rcases hB _ with ⟨h, e⟩ | ⟨h, e⟩ <;> rw [e] <;> simp [h])
    | (rcases hT _ with ⟨h, e⟩ | ⟨h, e⟩ <;> rw [e] <;> simp [h])
    | simp

end Sys2Proof
end

