-- ==== Sys2Proof/Laws/HostLoop.lean ====
section
/-! SUPPORT. What the host's PUSHes in a round of R233 can do (70_reset_and_hazards.md), said once. -/

namespace Sys2Proof.Machine

/-- A PUSH into a buffer with room is accepted (R120). -/
theorem Block.pushByte_room {p : Params} {b : Block} (h : b.q.length < p.inbufCap) (x : Byte) :
    b.pushByte p x = { b with q := b.q ++ [x], needMore := false, stage := .none } :=
  if_neg (by omega)

@[simp] theorem Block.pushWhileRoom_nil (p : Params) (b : Block) : b.pushWhileRoom p [] = (b, []) := rfl

/-- Everything the guarded PUSHes of R233 do: as many bytes as there is room for go to the tail of the buffer, the others stay with
the host, and no error bit is set. -/
theorem Block.pushWhileRoom_spec (p : Params) (b : Block) (bytes : List Byte) :
    ∃ n, n = min bytes.length (p.inbufCap - b.q.length) ∧ (b.pushWhileRoom p bytes).2 = bytes.drop n ∧
      (b.pushWhileRoom p bytes).1 =
        if n = 0 then b else { b with q := b.q ++ bytes.take n, needMore := false, stage := .none } := by
  induction bytes generalizing b with
  | nil => exact ⟨0, by simp, by simp, by simp⟩
  | cons x xs ih =>
    by_cases h : b.q.length < p.inbufCap
    · obtain ⟨n, hn, hrest, hblock⟩ := ih { b with q := b.q ++ [x], needMore := false, stage := .none }
      refine ⟨n + 1, by simp at hn ⊢; omega, ?_, ?_⟩ <;> rw [Block.pushWhileRoom, if_pos h, Block.pushByte_room h]
      · exact hrest
      · rw [hblock, if_neg (Nat.succ_ne_zero n)]
        clear hn hrest hblock
        split
        · rename_i h0
          simp [h0]
        · simp
    · refine ⟨0, by omega, ?_, ?_⟩ <;> rw [Block.pushWhileRoom, if_neg h] <;> rfl

end Sys2Proof.Machine
end

