-- ==== Sys2Proof/Laws/PerInstr.lean ====
section
/-! SUPPORT. A property of every command as syntax: its word has the fixed bits of its row of opcode_table.json (R82). -/

/-- The command's word, under its row's mask, is its row's match; and the row is one of the table's ten. -/
def Sys2Proof.Laws.EncodedWordFitsRow.Statement (i : Sys2Proof.Instr) : Prop :=
  (Sys2Proof.rowOf i).fits (Sys2Proof.encode i) = true ∧ Sys2Proof.rowOf i ∈ Sys2Proof.opcodeTable

namespace Sys2Proof.Laws.EncodedWordFitsRow

theorem nop : Statement .nop := by unfold Statement; decide
theorem push (b : Byte) : Statement (.push b) := by
  refine ⟨?_, by simp [opcodeTable, rowOf]⟩
  revert b
  decide +kernel
theorem scan : Statement .scan := by unfold Statement; decide
theorem pop : Statement .pop := by unfold Statement; decide
theorem crcInit : Statement .crcInit := by unfold Statement; decide
theorem crcUpdate (b : Byte) : Statement (.crcUpdate b) := by
  refine ⟨?_, by simp [opcodeTable, rowOf]⟩
  revert b
  decide +kernel
theorem crcCheck (t0 t1 t2 : Byte) : Statement (.crcCheck t0 t1 t2) := by
  refine ⟨?_, by simp [opcodeTable, rowOf]⟩
  have top : encode (.crcCheck t0 t1 t2) &&& 0xFF000000 = 0x60000000 := by
    apply BitVec.eq_of_toNat_eq
    rw [show (0xFF000000 : Word) = ~~~ (BitVec.ofNat 32 (2 ^ 24 - 1)) from rfl, word_mask_toNat, encode,
      encodeFormT_toNat]
    have h0 := t0.isLt
    have h1 := t1.isLt
    have h2 := t2.isLt
    rw [show (6 : BitVec 4).toNat = 6 from rfl, show (0x60000000 : Word).toNat = 6 * 2 ^ 28 from rfl]
    omega
  simpa [OpcodeRow.fits, rowOf] using top
theorem clearErr : Statement .clearErr := by unfold Statement; decide
theorem flush : Statement .flush := by unfold Statement; decide
theorem softReset : Statement .softReset := by unfold Statement; decide

end Sys2Proof.Laws.EncodedWordFitsRow
end

