-- ==== Sys2Proof/Tests/Slice0.lean ====
section
/-! SUPPORT. Tests. Every expected value is from the spec: the words are written out from the fields of R80 and R81, the results are
the vectors (V-*) and programs (P*) of 95_test_vectors.md. The last section shows, for each statement with hypotheses, values that
meet them. -/

namespace Sys2Proof.Tests

open Sys2Proof.Machine

/-! ### Small states -/

/-- Frame A of 95_test_vectors.md: L = 0. -/
def frameA : List Byte := [0xD3, 0x00, 0x00, 0x47, 0xEA, 0x4B]

/-- Frame B: L = 3, message type 1025. -/
def frameB : List Byte := [0xD3, 0x00, 0x03, 0x40, 0x10, 0x00, 0xCF, 0x43, 0x77]

/-- Frame Bbad: frame B with one bit changed. -/
def frameBbad : List Byte := [0xD3, 0x00, 0x03, 0x40, 0x11, 0x00, 0xCF, 0x43, 0x77]

/-- Frame C: L = 2, the smallest with a message type. -/
def frameC : List Byte := [0xD3, 0x00, 0x02, 0x3F, 0xF0, 0xCE, 0xBE, 0xA1]

/-- Right after reset, but for the buffer. -/
def loaded (q : List Byte) : State := State.reset.withBlock { Block.reset with q := q }

/-- Right after reset, but for a frame held at the head of the buffer. -/
def holding (q : List Byte) : State := State.reset.withBlock { Block.reset with q := q, ready := true }

/-- Right after reset, but for the host's next events. -/
def hosting (events : List HostEvent) : State := State.reset.withProgram events

/-- An instance with the other wire order and another base address. -/
def lsbParams : Params := { inbufCap := 65535, wireOrder := .lsbFirst, baseAddr := 0x40000000 }

/-- Right after reset, but for the buffer, in that instance. -/
def lsbLoaded (q : List Byte) : State := (State.resetWith lsbParams).withBlock { Block.reset with q := q }

/-- What a register reads after one command. -/
def readAfter (i : Instr) (s : State) (off : Nat) : Option Word :=
  (nextState (exec i s)).map fun t => busRead t.params t.block off

/-! ### Decoding and encoding: OP[31:28] RZ[27:24] ARG[23:0] (R80 to R83) -/

theorem test_decode_nop : decode 0b0000_0000_000000000000000000000000 = .command .nop := by decide
theorem test_decode_push : decode 0b0001_0000_0000000000000000_11010011 = .command (.push 0xD3) := by decide
theorem test_decode_scan : decode 0b0010_0000_000000000000000000000000 = .command .scan := by decide
theorem test_decode_pop : decode 0b0011_0000_000000000000000000000000 = .command .pop := by decide
theorem test_decode_crcInit : decode 0b0100_0000_000000000000000000000000 = .command .crcInit := by decide
theorem test_decode_crcUpdate : decode 0b0101_0000_0000000000000000_00110001 = .command (.crcUpdate 0x31) := by decide
theorem test_decode_crcCheck :
    decode 0b0110_0000_11001101_11100111_00000011 = .command (.crcCheck 0xCD 0xE7 0x03) := by decide
theorem test_decode_clearErr : decode 0b0111_0000_000000000000000000000000 = .command .clearErr := by decide
theorem test_decode_flush : decode 0b1000_0000_000000000000000000000000 = .command .flush := by decide
theorem test_decode_softReset : decode 0b1111_0000_000000000000000000000000 = .command .softReset := by decide

/-- V-CMD-2 to V-CMD-4, V-CMD-6 to V-CMD-10, V-CMD-13 to V-CMD-15, V-CMD-19, V-CMD-20: a must-be-zero bit is 1. -/
theorem test_decode_mustBeZero :
    ([0x00000001, 0x01000000, 0x10000100, 0x20000001, 0x2F000000, 0x30000080, 0x40000001, 0x50000100, 0x61000000,
        0x70000010, 0x80000001, 0xF0000001, 0xFF000000] : List Word).map decode =
      List.replicate 13 (.illegal .mustBeZero) := by decide

/-- V-CMD-16 to V-CMD-18: a reserved OP. -/
theorem test_decode_reservedOp :
    ([0x90000000, 0xA0000000, 0xE0000000] : List Word).map decode = List.replicate 3 (.illegal .reservedOp) := by decide

theorem test_encode :
    [encode .nop, encode (.push 0xD3), encode .scan, encode .pop, encode .crcInit, encode (.crcUpdate 0x31),
        encode (.crcCheck 0xCD 0xE7 0x03), encode .clearErr, encode .flush, encode .softReset] =
      [0x00000000, 0x100000D3, 0x20000000, 0x30000000, 0x40000000, 0x50000031, 0x60CDE703, 0x70000000, 0x80000000,
        0xF0000000] := by decide

theorem test_decodeTableWord :
    decodeTableWord 32 0x60CDE703 = some (.crcCheck 0xCD 0xE7 0x03) ∧ decodeTableWord 32 0x90000000 = none ∧
      decodeTableWord 8 0x00 = some .nop := by decide

/-! ### Well-formedness: what each check refuses -/

theorem test_wf_params :
    Params.reference.wf = true ∧ lsbParams.wf = true ∧
      ({ Params.reference with inbufCap := 1028 } : Params).wf = false ∧
      ({ Params.reference with inbufCap := 65536 } : Params).wf = false := by decide

theorem test_wf_byteOperand : byteOperandWf 255 = true ∧ byteOperandWf 256 = false := by decide

theorem test_wf_wordOperand :
    wordOperandWf 24 0xFFFFFF = true ∧ wordOperandWf 24 0x1000000 = false ∧
      wordOperandWf 32 0xFFFFFFFF = true ∧ wordOperandWf 32 0x100000000 = false := by decide

theorem test_wf_windowIndex : windowIndexWf 1028 = true ∧ windowIndexWf 1029 = false := by decide

/-! ### The commands -/

/-- V-CMD-23. -/
theorem test_nop : readAfter .nop (holding frameA) 0x0004 = some 0x00000001 := by decide

/-- V-BUF-1, V-CMD-5. -/
theorem test_push : readAfter (.push 0xFF) State.reset 0x0008 = some 1 := by decide

/-- V-BUF-3: the byte is dropped. The buffer is full. -/
theorem test_push_full :
    readAfter (.push 0x55) (loaded (List.replicate 1029 0x55)) 0x0004 = some 0x00000100 := by decide +kernel

/-- STATUS after V-SCAN-5 (L = 0, so the CRC bytes are what is missing), V-SCAN-12 (a false preamble holds frame A), V-SCAN-14
(a mismatch, resync, then frame A) and V-SCAN-22 (the MSB_FIRST frame fails under LSB_FIRST). -/
theorem test_scan_status :
    [readAfter .scan (loaded [0xD3, 0x00, 0x00]) 0x0004, readAfter .scan (loaded (0xD3 :: frameA)) 0x0004,
        readAfter .scan (loaded (frameBbad ++ frameA)) 0x0004, readAfter .scan (lsbLoaded frameA) 0x0004] =
      [some 0x00000012, some 0x0000000E, some 0x00000001, some 0x00000006] := by decide +kernel

/-- CRC_ERR_CNT after V-SCAN-14, FRAME_CRC after V-SCAN-11 and V-SCAN-21, FRAME_CNT after V-SCAN-26 (it wraps). -/
theorem test_scan_registers :
    [readAfter .scan (loaded (frameBbad ++ frameA)) 0x001C, readAfter .scan (loaded (frameA ++ [0x11, 0x22])) 0x0014,
        readAfter .scan (lsbLoaded [0xD3, 0x00, 0x00, 0x4B, 0xEA, 0x47]) 0x0014,
        readAfter .scan (State.reset.withBlock { Block.reset with q := frameA, frameCnt := 0xFFFFFFFF }) 0x0020] =
      [some 1, some 0x0047EA4B, some 0x004BEA47, some 0] := by decide +kernel

/-- V-BUF-7. -/
theorem test_pop : (nextState (exec .pop (holding (frameA ++ [0x11, 0x22])))).map (·.block.q) = some [0x11, 0x22] := by
  decide

/-- V-BUF-5. -/
theorem test_pop_noFrame : readAfter .pop State.reset 0x0004 = some 0x00000400 := by decide

/-- V-BUF-9. -/
theorem test_flush :
    readAfter .flush (holding frameA) 0x0004 = some 0 ∧ readAfter .flush (holding frameA) 0x0008 = some 0 := by decide

/-- R105: CRC_INIT clears the accumulator and leaves CRC_MATCH. -/
theorem test_crcInit :
    (nextState (exec .crcInit (State.reset.withBlock { Block.reset with crcAcc := 0xDD8538, crcMatch := true }))).map
      (fun t => (t.block.crcAcc, t.block.crcMatch)) = some (0x000000, true) := by decide

/-- V-CMD-11. -/
theorem test_crcUpdate : readAfter (.crcUpdate 0xD3) State.reset 0x0018 = some 0x00E33309 := by decide +kernel

/-- P1: the check value matches, and its bytes reversed do not. -/
theorem test_crcCheck :
    let s := State.reset.withBlock { Block.reset with crcAcc := 0xCDE703 }
    readAfter (.crcCheck 0xCD 0xE7 0x03) s 0x0004 = some 0x00010000 ∧
      readAfter (.crcCheck 0x03 0xE7 0xCD) s 0x0004 = some 0x00000000 := by decide

/-- V-CMD-21. -/
theorem test_clearErr :
    readAfter .clearErr (State.reset.withBlock { Block.reset with
      needMore := true, stage := .seekPreamble, errOverflow := true, errIllegal := true, errNoFrame := true }) 0x0004 =
        some 0x00000006 := by decide

/-- V-CMD-22: the parameters stay. -/
theorem test_softReset :
    nextState (exec .softReset (lsbLoaded frameB)) = some (State.resetWith lsbParams) := by decide

/-! ### The CRC function, the registers and the bus -/

/-- V-CRC-4, the general-knowledge check value over "123456789", and frame A's CRC. -/
theorem test_crc24q :
    crc24q [0x31, 0x32, 0x33, 0x34, 0x35, 0x36, 0x37, 0x38, 0x39] = 0xCDE703 ∧ crc24q [0xD3, 0x00, 0x00] = 0x47EA4B := by
  decide +kernel

/-- P3: FRAME_INFO and FRAME_CRC of the held frame B; V-TYPE-6: RSV is reported, not checked. -/
theorem test_frameRegisters :
    busRead Params.reference (holding frameB).block 0x0010 = 0x14010003 ∧
      busRead Params.reference (holding frameB).block 0x0014 = 0x00CF4377 ∧
      busRead Params.reference (holding [0xD3, 0xFC, 0x00, 0x32, 0xC2, 0x4F]).block 0x0010 = 0x0000FC00 := by decide

/-- V-BUS-1, V-BUS-2, V-BUS-4, V-BUS-7. -/
theorem test_busRead :
    [0x0000, 0x0024, 0x2014, 0x000C].map (busRead Params.reference (holding frameA).block) = [0, 0, 0, 0x00000405] := by
  decide

/-- R35: bit 16 of PARAMS is the wire order. -/
theorem test_params : busRead lsbParams Block.reset 0x000C = 0x0001FFFF := by decide

/-- V-BUS-3: a write to STATUS is ignored. -/
theorem test_step_ignoredWrite :
    nextState (step (hosting [.write .w32 0x0004 0xFFFFFFFF])) = some State.reset := by decide

/-- V-BUS-5: refused. -/
theorem test_step_refused :
    step (hosting [.read .w8 0x0004]) = .refused .subWordAccess ∧
      step (hosting [.read .w32 0x0006]) = .refused .misalignedAccess := ⟨rfl, rfl⟩

/-- V-CMD-16: an ILLEGAL word. -/
theorem test_step_illegal :
    (nextState (step (hosting [.write .w32 0x0000 0x90000000]))).map (fun t => busRead t.params t.block 0x0004) =
      some 0x00000200 := by decide

/-- The next step performs the placed word (log 4), at any base address. -/
theorem test_withFetchWord :
    nextState (step ((State.resetWith lsbParams).withFetchWord 32 0x100000D3)) = some (lsbLoaded [0xD3]) := by decide

/-! ### Host programs (R92, R93) -/

/-- The text form: comments, both byte notations, a line that goes on, a register read, and a raw word. -/
theorem test_parseProgram :
    parseProgram "PUSHB 0xD3,0,\n 19 ; as in P2\n\nCRC_CHECK 0xCDE703\nRD FRAME_WIN[1028]\nWR_CMD 0x90000000" =
      some [.pushB [0xD3, 0x00, 0x13], .command (.crcCheck 0xCD 0xE7 0x03), .read (.frameWin 1028), .wrCmd 0x90000000] := by
  decide +kernel

/-- Ill-formed lines: a byte above 255, too few digits, an index above 1028, a missing operand, an unknown mnemonic. -/
theorem test_parseProgram_illFormed :
    ["PUSH 256", "WR_CMD 0x900", "RD FRAME_WIN[1029]", "PUSH", "JUMP 1"].map parseProgram =
      [none, none, none, none, none] := by decide +kernel

/-- R93: `CRCB` is CRC_INIT and one CRC_UPDATE for each byte. -/
theorem test_assemble :
    assemble Params.reference "CRCB 0x31, 50" =
      some [.write .w32 0 0x40000000, .write .w32 0 0x50000031, .write .w32 0 0x50000032] := by decide +kernel

/-- Both cases of a hexadecimal digit, both notations, and a character that is no digit. -/
theorem test_parseByte :
    ["0xAf", "175", "0xG0", "2F"].map (fun t => parseByte t.toList) = [some 0xAF, some 175, none, none] := by decide +kernel

/-! ### The host loop (R233) -/

/-- "while FILL < INBUF_CAP": with room for one byte, one byte is pushed, the other stays with the host, and nothing overflows. The
capacity is small for the test's sake. -/
theorem test_pushWhileRoom :
    let b := (loaded [0x00, 0x00]).block
    Block.pushWhileRoom { Params.reference with inbufCap := 3 } b [0x11, 0x22] =
      ({ b with q := [0x00, 0x00, 0x11] }, [0x22]) := by decide

/-- A stream longer than the buffer: both frames are delivered, every byte is pushed, and no PUSH is rejected. -/
theorem test_hostLoop :
    let r := hostLoop { Params.reference with inbufCap := 8 } Block.reset [List.replicate 9 0x00 ++ frameA, frameA]
    r.delivered = [frameA, frameA] ∧ r.waiting = [] ∧ r.block.errOverflow = false := by decide +kernel

/-! ### Values that meet the hypotheses of the statements -/

theorem heldFrame_A : HeldFrame .msbFirst frameA := ⟨by decide, by decide, by decide +kernel⟩

theorem heldFrame_B : HeldFrame .msbFirst frameB := ⟨by decide, by decide, by decide +kernel⟩

theorem heldFrame_C : HeldFrame .msbFirst frameC := ⟨by decide, by decide, by decide +kernel⟩

/-- A state with a held frame that has the invariants. -/
theorem holding_A_inv : (holding frameA).Inv :=
  ⟨by decide, ⟨by decide, fun _ => heldFrame_A, by decide, by decide, trivial⟩⟩

/-- For each stage a waiting state that has the invariants. -/
def waiting (q : List Byte) (k : Stage) : State :=
  State.reset.withBlock { Block.reset with q := q, needMore := true, stage := k }

theorem waiting_inv :
    (waiting [] .seekPreamble).Inv ∧ (waiting [0xD3, 0x00] .readLength).Inv ∧
      (waiting [0xD3, 0x03, 0xFF] .readPayload).Inv ∧ (waiting [0xD3, 0x00, 0x00, 0x47, 0xEA] .readCrc).Inv :=
  ⟨⟨by decide, ⟨by decide, fun h => absurd h (by decide), by decide, by decide, rfl⟩⟩,
    ⟨by decide, ⟨by decide, fun h => absurd h (by decide), by decide, by decide, ⟨rfl, by decide⟩⟩⟩,
    ⟨by decide, ⟨by decide, fun h => absurd h (by decide), by decide, by decide, ⟨rfl, by decide, by decide⟩⟩⟩,
    ⟨by decide, ⟨by decide, fun h => absurd h (by decide), by decide, by decide, ⟨rfl, by decide, by decide⟩⟩⟩⟩

theorem witness_EncodeOfDecode : decode 0x609FEF29 = .command (.crcCheck 0x9F 0xEF 0x29) := by decide

/-- One word for each form's must-be-zero field, and both ends of the reserved OPs. -/
theorem witness_IllegalWordsOnlySetErrIllegal :
    (∀ w ∈ ([0x90000000, 0xEFFFFFFF] : List Word), 9 ≤ (w.extractLsb' 28 4).toNat ∧ (w.extractLsb' 28 4).toNat ≤ 14) ∧
    (∀ w ∈ ([0x10000100, 0x58000000] : List Word), (w.extractLsb' 28 4).toNat ∈ [1, 5] ∧ w.extractLsb' 8 20 ≠ 0) ∧
    (∀ w ∈ ([0x61000000, 0x68FFFFFF] : List Word), (w.extractLsb' 28 4).toNat = 6 ∧ w.extractLsb' 24 4 ≠ 0) ∧
    (∀ w ∈ ([0x00000001, 0xF8000000] : List Word),
      (w.extractLsb' 28 4).toNat ∈ [0, 2, 3, 4, 7, 8, 15] ∧ w.extractLsb' 0 28 ≠ 0) := by simp

theorem witness_IllegalWords_noOp : ∀ s : State, performWord 0x00000000 s = .next s := fun _ => rfl

theorem witness_CmdWritePerformsItsWord :
    (hosting [.write .w32 0 0x20000000]).pending =
        .write .w32 ((hosting []).params.baseAddr + 0x0000) 0x20000000 :: [] ∧ decode 0x20000000 = .command .scan ∧
      (hosting [.write .w32 0 0xE0000000]).pending =
        .write .w32 ((hosting []).params.baseAddr + 0x0000) 0xE0000000 :: [] ∧ decode 0xE0000000 = .illegal .reservedOp ∧
      (hosting [.read .w32 0]).pending = .read .w32 ((hosting []).params.baseAddr + 0x0000) :: [] := by decide

/-- At the last offset of the aperture: a read, two reads, and a write. -/
theorem witness_ReadsHaveNoSideEffect :
    0x3FFC < 0x4000 ∧ 0x3FFC % 4 = 0 ∧ 0x3FFC ≠ 0x0000 ∧
      (hosting [.read .w32 0x3FFC]).pending = .read .w32 ((hosting []).params.baseAddr + 0x3FFC) :: [] ∧
      (hosting [.read .w32 0x3FFC, .read .w32 0x3FFC]).pending =
        .read .w32 ((hosting []).params.baseAddr + 0x3FFC) :: .read .w32 ((hosting []).params.baseAddr + 0x3FFC) :: [] ∧
      (hosting [.write .w32 0x3FFC 1]).pending = .write .w32 ((hosting []).params.baseAddr + 0x3FFC) 1 :: [] := by decide

/-- The unmapped offsets next to the map's ends, and CMD. -/
theorem witness_UnmappedAndWrongDirection :
    (∀ off ∈ [0x0000, 0x0024, 0x0FFC, 0x2014, 0x3FFC],
      off < 0x4000 ∧ off % 4 = 0 ∧ (off = 0x0000 ∨ (0x0020 < off ∧ ¬ (0x1000 ≤ off ∧ off ≤ 0x2010))) ∧
        (hosting [.read .w32 off]).pending = .read .w32 ((hosting []).params.baseAddr + off) :: []) ∧
      (hosting [.write .w32 0x2010 1]).pending = .write .w32 ((hosting []).params.baseAddr + 0x2010) 1 :: [] := by decide

/-- Each width, each edge of the aperture, and an access that is both sub-word and misaligned. -/
theorem witness_SubWordAndMisalignedRefused :
    (hosting [.read .w8 0x0004]).pending = .read .w8 ((hosting []).params.baseAddr + 0x0004) :: [] ∧
      (hosting [.write .w16 0x0000 1]).pending = .write .w16 ((hosting []).params.baseAddr + 0x0000) 1 :: [] ∧
      (hosting [.read .w8 0x0003]).pending = .read .w8 ((hosting []).params.baseAddr + 0x0003) :: [] ∧ 0x0003 % 4 ≠ 0 ∧
      AccessWidth.w8 ≠ .w32 ∧ AccessWidth.w16 ≠ .w32 ∧ 0x3FFF < 0x4000 ∧ 0x3FFF % 4 ≠ 0 ∧
      (hosting [.read .w32 0x3FFF]).pending = .read .w32 ((hosting []).params.baseAddr + 0x3FFF) :: [] ∧
      (hosting [.read .w32 0x3FFC]).pending = .read .w32 ((hosting []).params.baseAddr + 0x3FFC) :: [] ∧ 0x3FFC % 4 = 0 := by
  decide

/-- A step that answers a next state, and one that does not. -/
theorem witness_OnlyUndefinedAccessesStop :
    (∃ t, step (hosting [.reset .resetInput]) = .next t) ∧ step (hosting []) = .refused .hostProgramEnded ∧
      step (hosting [.read .w32 0x4000]) = .fault .outsideAperture := ⟨⟨_, rfl⟩, rfl, rfl⟩

theorem witness_StatusShowsTheFlags :
    (hosting [.write .w32 0x0004 1]).pending = .write .w32 ((hosting []).params.baseAddr + 0x0004) 1 :: [] := by decide

theorem witness_FillCountsTheBuffer : (holding frameA).Inv ∧ (holding frameA).block.q.length = 6 :=
  ⟨holding_A_inv, rfl⟩

theorem witness_ParamsIsConstant :
    Params.reference.wf = true ∧ lsbParams.wf = true ∧ ∃ t, step (hosting [.reset .powerOn]) = .next t :=
  ⟨by decide, by decide, _, rfl⟩

/-- No frame, a frame with a type (L = 2), one without (L = 1), and the largest L. -/
theorem witness_FrameInfoFields :
    Block.reset.ready = false ∧ (holding frameC).block.ready = true ∧ frameLen frameC = 2 ∧
      frameLen [0xD3, 0x00, 0x01] = 1 ∧ frameLen [0xD3, 0xFF, 0xFF] = 1023 := by decide

theorem witness_HeaderFieldsAreBigEndian :
    3 ≤ frameC.length ∧ 2 ≤ frameLen frameC ∧ 3 + frameLen frameC ≤ frameC.length ∧ 3 ≤ frameA.length ∧
      frameLen frameA < 2 := by decide

theorem witness_FrameCrcIsRawCopy : Block.reset.ready = false ∧ (holding frameA).block.ready = true := by decide

/-- The last entry of FRAME_WIN, inside the longest frame and beyond a frame one byte shorter. -/
theorem witness_FrameWindowShowsTheFrame :
    1028 ≤ 1028 ∧ (holding [0xD3, 0x03, 0xFF]).block.ready = true ∧ 1028 < 6 + frameLen [0xD3, 0x03, 0xFF] ∧
      ¬ ((holding [0xD3, 0x03, 0xFE]).block.ready = true ∧ 1028 < 6 + frameLen [0xD3, 0x03, 0xFE]) := by decide

/-- A full buffer, and one with room for one byte. -/
theorem witness_PushAppendsOrOverflows :
    (loaded (List.replicate 1029 0)).block.q.length = State.reset.params.inbufCap ∧
      (loaded (List.replicate 1028 0)).block.q.length ≠ State.reset.params.inbufCap := by decide +kernel

theorem witness_ScanFollowsTransitionTable : (holding frameA).block.ready = true := by decide

theorem witness_SeekDropsToThePreamble :
    let s := loaded ([0x00, 0xFF] ++ frameA)
    s.block.ready = false ∧ s.block.q = [0x00, 0xFF] ++ frameA ∧ (∀ x ∈ ([0x00, 0xFF] : List Byte), x ≠ 0xD3) ∧
      frameA.head? = some 0xD3 ∧ examine s.params.wireOrder frameA ≠ .mismatch ∧
      (loaded [0x00, 0x01, 0x02]).block.q = [0x00, 0x01, 0x02] ++ [] := by decide +kernel

/-- The four ways to run short, at the lengths where they meet. -/
theorem witness_ShortCandidateRewinds :
    (loaded []).block.ready = false ∧ (loaded []).block.q = [] ∧
      (∀ q ∈ ([[0xD3, 0x00], [0xD3, 0x00, 0x01], [0xD3, 0x00, 0x01, 0x3E], frameA.dropLast] : List (List Byte)),
        (loaded q).block.ready = false ∧ q.head? = some 0xD3) ∧
      ([0xD3, 0x00] : List Byte).length < 3 ∧ 3 < 3 + frameLen [0xD3, 0x00, 0x01] ∧
      3 + frameLen [0xD3, 0x00, 0x01, 0x3E] = 4 ∧ 3 + frameLen frameA.dropLast ≤ frameA.dropLast.length ∧
      frameA.dropLast.length < 6 + frameLen frameA.dropLast := by decide

theorem witness_MismatchDropsOnlyThePreamble :
    let s := loaded frameBbad
    s.block.ready = false ∧ s.block.q.head? = some 0xD3 ∧ 6 + frameLen s.block.q ≤ s.block.q.length ∧
      crcBytes s.params.wireOrder (crc24q (s.block.q.take (3 + frameLen s.block.q))) ≠
        (byteAt s.block.q (3 + frameLen s.block.q), byteAt s.block.q (4 + frameLen s.block.q),
          byteAt s.block.q (5 + frameLen s.block.q)) := by decide +kernel

theorem witness_ValidCandidateIsHeld :
    let s := loaded frameC
    s.block.ready = false ∧ s.block.q.head? = some 0xD3 ∧ 6 + frameLen s.block.q ≤ s.block.q.length ∧
      crcBytes s.params.wireOrder (crc24q (s.block.q.take (3 + frameLen s.block.q))) =
        (byteAt s.block.q (3 + frameLen s.block.q), byteAt s.block.q (4 + frameLen s.block.q),
          byteAt s.block.q (5 + frameLen s.block.q)) := by decide +kernel

/-- Frame R of 95_test_vectors.md (RSV = 63, no payload) and frame C (2 bytes of payload) behind garbage. -/
theorem witness_EveryWellFormedFrameIsHeld :
    makeFrame .msbFirst 63 [] = [0xD3, 0xFC, 0x00, 0x32, 0xC2, 0x4F] ∧ makeFrame .msbFirst 0 [0x3F, 0xF0] = frameC ∧
      (loaded ([0x00] ++ frameC ++ [0x11])).block.ready = false ∧
      (loaded ([0x00] ++ frameC ++ [0x11])).block.q = [0x00] ++ makeFrame .msbFirst 0 [0x3F, 0xF0] ++ [0x11] ∧
      (List.replicate 1023 (0 : Byte)).length ≤ 1023 := by decide +kernel

theorem witness_PopReleasesTheFrame :
    (loaded []).block.ready = false ∧ (holding frameB).block.ready = true := by decide

theorem witness_CrcCheckComparesPositions :
    State.reset.params.wireOrder = .msbFirst ∧ (State.resetWith lsbParams).params.wireOrder = .lsbFirst := by decide

theorem witness_SoftResetIsPowerOn :
    (hosting [.reset .powerOn]).pending = .reset .powerOn :: [] ∧
      (hosting [.reset .resetInput]).pending = .reset .resetInput :: [] := by decide

theorem witness_ResetLeavesZeros : 0x0000 ≠ 0x000C ∧ 0x2010 ≠ 0x000C := by decide

theorem witness_SingleBitFlipsAreDetected : 2 < ([0xD3, 0x00, 0x00] : List Byte).length ∧ 7 < 8 := by decide

theorem witness_CrcIsLinear : ([0x01, 0x02] : List Byte).length = ([0xFF, 0x00] : List Byte).length := by decide

theorem witness_StepKeepsInvariants :
    (placeCommand (holding frameA) 0x30000000).Inv ∧ ∃ t, step (placeCommand (holding frameA) 0x30000000) = .next t :=
  ⟨⟨holding_A_inv.paramsOk, holding_A_inv.blockOk⟩, _, rfl⟩

theorem witness_ResetHasInvariants : Params.reference.wf = true ∧ lsbParams.wf = true := by decide

/-- A waiting state for each stage, with bytes that fill the buffer up to 1029. -/
theorem witness_RoomAfterNeedMore :
    (waiting [] .seekPreamble).Inv ∧ (waiting [0xD3, 0x00] .readLength).Inv ∧
      (waiting [0xD3, 0x03, 0xFF] .readPayload).Inv ∧ (waiting [0xD3, 0x00, 0x00, 0x47, 0xEA] .readCrc).Inv ∧
      (waiting [0xD3, 0x03, 0xFF] .readPayload).block.needMore = true ∧
      ([0xD3, 0x03, 0xFF] : List Byte).length + (List.replicate 1026 (0 : Byte)).length ≤ 1029 :=
  ⟨waiting_inv.1, waiting_inv.2.1, waiting_inv.2.2.1, waiting_inv.2.2.2, rfl, by decide +kernel⟩

/-- Each error condition arises. -/
theorem witness_ErrorBitsAreSticky :
    (nextState (exec (.push 0) (loaded (List.replicate 1029 0)))).map (·.block.errOverflow) = some true ∧
      (nextState (exec .pop State.reset)).map (·.block.errNoFrame) = some true ∧ Instr.nop ≠ .clearErr ∧
      Instr.nop ≠ .softReset := by decide +kernel

theorem witness_AtMostOneErrorPerWord :
    (loaded frameA).block.errOverflow = false ∧ (loaded frameA).block.errIllegal = false ∧
      (loaded frameA).block.errNoFrame = false ∧ decode 0x20000000 ≠ .command .softReset ∧
      (nextState (performWord 0x20000000 (loaded frameA))).map (·.block.frameCnt) = some 1 := by decide +kernel

theorem witness_CountersOnlyCount :
    0x0020 < 0x4000 ∧ 0x0020 % 4 = 0 ∧ 0x0020 ≠ 0x0000 ∧
      (hosting [.write .w32 0x0020 1]).pending = .write .w32 ((hosting []).params.baseAddr + 0x0020) 1 :: [] := by decide

theorem witness_CrcUnitAndScannerDoNotInterfere :
    (Instr.scan = .scan ∨ Instr.scan = .pop ∨ Instr.scan = .flush ∨ ∃ b, Instr.scan = .push b) ∧
      (Instr.crcInit = .crcInit ∨ (∃ b, Instr.crcInit = .crcUpdate b) ∨ ∃ t0 t1 t2, Instr.crcInit = .crcCheck t0 t1 t2) ∧
      State.reset.block.crcAcc = (holding frameA).block.crcAcc ∧
      State.reset.block.crcMatch = (holding frameA).block.crcMatch := ⟨.inl rfl, .inl rfl, rfl, rfl⟩

/-- Each flag's change arises: a frame held, a frame released, a wait begun and ended, a match. -/
theorem witness_FlagsChangeOnlyAsListed :
    (nextState (exec .scan (loaded frameA))).map (·.block.ready) = some true ∧
      (nextState (exec .pop (holding frameA))).map (·.block.ready) = some false ∧
      (nextState (exec .scan (loaded []))).map (·.block.stage) = some .seekPreamble ∧
      (nextState (exec (.push 0) (waiting [] .seekPreamble))).map (·.block.stage) = some .none ∧
      (nextState (exec (.crcCheck 0 0 0) State.reset)).map (·.block.crcMatch) = some true := by decide +kernel

theorem witness_HeldFrameStaysUntilReleased :
    (holding frameA).Inv ∧ (holding frameA).block.ready = true ∧
      (∀ i ∈ [Instr.scan, .push 0xAA], i = .scan ∨ ∃ b, i = .push b) ∧ (0x1000 : Nat) ≤ 0x2010 :=
  ⟨holding_A_inv, rfl, by simp, by decide⟩

theorem witness_FrameRegistersZeroAfterRelease : (holding frameA).block.ready = true ∧ 0x1000 ≤ 0x2010 := by decide

/-- Both outcomes: the first bytes of frame A, and frame A. -/
theorem witness_PartialInputIdempotence :
    (scanBytes .msbFirst (frameA.take 4)).outcome = .needMore .readCrc ∧
      (scanBytes .msbFirst frameA).outcome = .frameReady := by decide +kernel

/-- Two splits of the stream of P3 (R135), without a rejected PUSH. -/
theorem witness_BatchSplitDoesNotMatter :
    let whole : List (List Byte) := [frameB ++ frameBbad ++ frameC]
    let parts : List (List Byte) := [frameB.take 4, [], frameB.drop 4 ++ frameBbad, frameC]
    whole ≠ [] ∧ parts ≠ [] ∧ whole.flatten = parts.flatten ∧
      (feedBatches Params.reference Block.reset whole).2.errOverflow = false ∧
      (feedBatches Params.reference Block.reset parts).2.errOverflow = false ∧
      (feedBatches Params.reference Block.reset whole).1 = [frameB, frameC] := by decide +kernel

/-- The stream of P3: frame B, Bbad, frame C. -/
theorem witness_ResyncAfterCorruptedFrame :
    Block.reset.ready = false ∧ Block.reset.q = [] ∧
      frameB.length + frameBbad.length + frameC.length ≤ Params.reference.inbufCap ∧
      HeldFrame Params.reference.wireOrder frameB ∧ frameB.length = 6 + frameLen frameB ∧
      HeldFrame Params.reference.wireOrder frameC ∧ frameC.length = 6 + frameLen frameC ∧
      frameBbad.head? = some 0xD3 ∧ frameBbad.length = 6 + frameLen frameBbad ∧
      frameValid Params.reference.wireOrder frameBbad = false ∧
      (∀ n, 1 ≤ n → n < frameBbad.length → byteAt frameBbad n = 0xD3 →
        examine Params.reference.wireOrder ((frameBbad ++ frameC).drop n) = .mismatch) :=
  ⟨rfl, rfl, by decide, heldFrame_B, by decide, heldFrame_C, by decide, rfl, by decide, by decide +kernel, by
    intro n _ hlt
    have : n < 9 := hlt
    interval_cases n <;> decide +kernel⟩

/-- A corrupted frame with a 0xD3 in its payload, whose candidate is whole (L = 0), ends in the next frame and fails its CRC. -/
def corruptedWithPreamble : List Byte := [0xD3, 0x00, 0x02, 0xD3, 0x00, 0x00, 0x00, 0x00]

/-- The hypothesis on the later 0xD3 bytes, met by one that is there. -/
theorem witness_ResyncAfterCorruptedFrame_falseCandidate :
    frameB.length + corruptedWithPreamble.length + frameC.length ≤ Params.reference.inbufCap ∧
      corruptedWithPreamble.head? = some 0xD3 ∧ corruptedWithPreamble.length = 6 + frameLen corruptedWithPreamble ∧
      frameValid Params.reference.wireOrder corruptedWithPreamble = false ∧ byteAt corruptedWithPreamble 3 = 0xD3 ∧
      (∀ n, 1 ≤ n → n < corruptedWithPreamble.length → byteAt corruptedWithPreamble n = 0xD3 →
        examine Params.reference.wireOrder ((corruptedWithPreamble ++ frameC).drop n) = .mismatch) :=
  ⟨by decide, rfl, by decide, by decide +kernel, by decide, by
    intro n _ hlt
    have : n < 8 := hlt
    interval_cases n <;> decide +kernel⟩

theorem reset_block_inv : Block.reset.Inv Params.reference :=
  ⟨by decide, fun h => absurd h (by decide), by decide, by decide, trivial⟩

/-- A held frame to begin with, one byte waiting, and another frame arriving: two frames are delivered. -/
theorem witness_HostRoundRunsItsCommands :
    (holding frameA).Inv ∧
      (HostLoop.round Params.reference { delivered := [], waiting := [0x00], block := (holding frameA).block }
        frameC).delivered[1]? = some frameC := ⟨holding_A_inv, by decide +kernel⟩

theorem witness_HostLoopLosesNothing :
    Params.reference.wf = true ∧ Block.reset.Inv Params.reference ∧ [frameB.take 4, [], frameB.drop 4] ≠ [] :=
  ⟨by decide, reset_block_inv, by simp⟩

theorem witness_HostLinesPerformTheirCommands :
    (HostLine.crcB [0x31]).commands ≠ [] ∧
      (hosting ((HostLine.crcB [0x31]).events (hosting []).params ++ [.reset .powerOn])).pending =
        (HostLine.crcB [0x31]).events (hosting []).params ++ [.reset .powerOn] := by decide

end Sys2Proof.Tests
end

section
/-! PROOFS. The invariants at reset. -/

namespace Sys2Proof

/-- The reference instance obeys R6. -/
theorem Params.reference_wf : Params.reference.wf = true := by decide

end Sys2Proof

namespace Sys2Proof.Machine

/-- The block state of R230 meets R23 and R24, and R20 under any bound: it holds no frame, waits for nothing, and its buffer
is empty. -/
theorem Block.reset_inv (p : Params) : Block.reset.Inv p where
  fits := Nat.zero_le p.inbufCap
  held := fun hready => absurd hready Bool.false_ne_true
  stageIff := by decide
  readyNotWaiting := fun _ => rfl
  waits := trivial

/-- An instance that obeys R6 meets the invariants right after reset. -/
theorem State.resetWith_inv {p : Params} (hwf : p.wf = true) : (State.resetWith p).Inv where
  paramsOk := hwf
  blockOk := Block.reset_inv p

end Sys2Proof.Machine

namespace Sys2Proof.Proofs

open Sys2Proof.Machine

/-- Settles O43: the block state of R230 meets its invariants whatever the parameters, so R6 is all that an instance adds. -/
theorem resetHasInvariants : Obligations.ResetHasInvariants :=
  ⟨fun _ hwf => State.resetWith_inv hwf, State.resetWith_inv Params.reference_wf⟩

end Sys2Proof.Proofs
end

section
/-! PROOFS. Each command as one function of the parameters and the block, and what each operation keeps. -/

namespace Sys2Proof.Machine

/-! ### Each command as a function on the block -/

/-- The block after a command: no command changes anything else, and only PUSH, SCAN and CRC_CHECK look at the parameters. -/
def Block.after (p : Params) (b : Block) : Instr → Block
  | .nop => b
  | .push x => b.pushByte p x
  | .scan => b.scan p.wireOrder
  | .pop => b.popFrame
  | .crcInit => { b with crcAcc := crcInitValue }
  | .crcUpdate x => { b with crcAcc := crcStep b.crcAcc x }
  | .crcCheck t0 t1 t2 => { b with crcMatch := crcMatches p.wireOrder b.crcAcc (t0, t1, t2) }
  | .clearErr => b.clearErrors
  | .flush => b.discardInput
  | .softReset => Block.reset

/-- `exec` is `Block.after` on the block and leaves the rest of the machine. -/
theorem exec_eq (i : Instr) (s : State) : exec i s = .next (s.withBlock (s.block.after s.params i)) := by
  cases i <;> rfl

/-! ### What the operations keep -/

@[simp] theorem Block.discardInput_keeps (b : Block) :
    b.discardInput.errOverflow = b.errOverflow ∧ b.discardInput.errIllegal = b.errIllegal ∧
      b.discardInput.errNoFrame = b.errNoFrame ∧ b.discardInput.crcMatch = b.crcMatch ∧
      b.discardInput.crcAcc = b.crcAcc ∧ b.discardInput.crcErrCnt = b.crcErrCnt ∧
      b.discardInput.frameCnt = b.frameCnt := ⟨rfl, rfl, rfl, rfl, rfl, rfl, rfl⟩

@[simp] theorem Block.pushByte_keeps (p : Params) (b : Block) (x : Byte) :
    (b.pushByte p x).ready = b.ready ∧ (b.pushByte p x).errIllegal = b.errIllegal ∧
      (b.pushByte p x).errNoFrame = b.errNoFrame ∧ (b.pushByte p x).crcMatch = b.crcMatch ∧
      (b.pushByte p x).crcAcc = b.crcAcc ∧ (b.pushByte p x).crcErrCnt = b.crcErrCnt ∧
      (b.pushByte p x).frameCnt = b.frameCnt := by
  rcases b.pushByte_cases p x with ⟨-, h⟩ | ⟨-, h⟩ <;> simp [h]

@[simp] theorem Block.popFrame_keeps (b : Block) :
    b.popFrame.needMore = b.needMore ∧ b.popFrame.stage = b.stage ∧ b.popFrame.errOverflow = b.errOverflow ∧
      b.popFrame.errIllegal = b.errIllegal ∧ b.popFrame.crcMatch = b.crcMatch ∧ b.popFrame.crcAcc = b.crcAcc ∧
      b.popFrame.crcErrCnt = b.crcErrCnt ∧ b.popFrame.frameCnt = b.frameCnt := by
  rcases b.popFrame_cases with ⟨-, h⟩ | ⟨-, h⟩ <;> simp [h]

/-- After POP no frame is held, whether or not one was (R132). -/
@[simp] theorem Block.popFrame_ready (b : Block) : b.popFrame.ready = false := by
  rcases b.popFrame_cases with ⟨h, e⟩ | ⟨-, e⟩
  · rw [e, Block.raiseErr_ready, h]
  · rw [e]

@[simp] theorem Block.scan_keeps (o : WireOrder) (b : Block) :
    (b.scan o).errOverflow = b.errOverflow ∧ (b.scan o).errIllegal = b.errIllegal ∧
      (b.scan o).errNoFrame = b.errNoFrame ∧ (b.scan o).crcMatch = b.crcMatch ∧ (b.scan o).crcAcc = b.crcAcc := by
  rcases b.scan_cases o with ⟨-, h⟩ | ⟨-, k, -, -, h⟩ | ⟨-, -, h⟩ <;> rw [h] <;> exact ⟨rfl, rfl, rfl, rfl, rfl⟩

/-- A SCAN is a no-op while a frame is held (R121). -/
theorem Block.scan_of_ready (o : WireOrder) {b : Block} (h : b.ready = true) : b.scan o = b := if_pos h

/-- A SCAN drops bytes from the head of the buffer only. -/
theorem Block.scan_drop (o : WireOrder) (b : Block) : ∃ k ≤ b.q.length, (b.scan o).q = b.q.drop k := by
  obtain ⟨⟨k, -, hk, hq⟩, -⟩ := scanBytes_spec o b.q
  rcases b.scan_cases o with ⟨-, h⟩ | ⟨-, _, -, -, h⟩ | ⟨-, -, h⟩
  · exact ⟨0, Nat.zero_le _, by rw [h, List.drop_zero]⟩
  · exact ⟨k, hk, by rw [h, Block.endNeedMore_q, hq]⟩
  · exact ⟨k, hk, by rw [h, Block.endFrameReady_q, hq]⟩

/-! ### Steps on a register's offset -/

/-- A write to CMD is performed as its word (R32). -/
theorem step_cmdWrite {s : State} {w : Word} {rest : List HostEvent}
    (h : s.pending = .write .w32 (s.params.baseAddr + 0) w :: rest) :
    step s = performWord w { s with pending := rest } := by
  rw [step_cons h]
  exact performWrite_cmd { s with pending := rest } w

/-- A write to any other offset is ignored (R63). -/
theorem step_ignoredWrite {s : State} {off : Nat} {w : Word} {rest : List HostEvent} (hoff : off < 0x4000)
    (h4 : off % 4 = 0) (h0 : off ≠ 0) (h : s.pending = .write .w32 (s.params.baseAddr + off) w :: rest) :
    step s = .next { s with pending := rest } := by
  rw [step_cons h]
  exact performWrite_ignored { s with pending := rest } hoff h4 h0 w

/-- A read gives the host what its offset reads, and changes nothing else (R67). -/
theorem step_read {s : State} {off : Nat} {rest : List HostEvent} (hoff : off < 0x4000) (h4 : off % 4 = 0)
    (h : s.pending = .read .w32 (s.params.baseAddr + off) :: rest) :
    step s = .next { s with pending := rest, readLog := s.readLog ++ [busRead s.params s.block off] } := by
  rw [step_cons h]
  exact performRead_aligned { s with pending := rest } hoff h4

end Sys2Proof.Machine
end

section
/-! PROOFS. Every command and every step keeps the invariants (10_state.md R20, R23, R24). -/

namespace Sys2Proof.Machine

/-- A held frame stays one whatever is appended (R23, R235). -/
theorem HeldFrame.append {o : WireOrder} {q : List Byte} (h : HeldFrame o q) (r : List Byte) : HeldFrame o (q ++ r) := by
  obtain ⟨hhead, hwhole, hvalid⟩ := h
  exact {
    head := by rw [List.head?_append, hhead, Option.some_or]
    whole := by rw [frameLen_append (by omega), List.length_append]; omega
    valid := by rw [frameValid_append hwhole, hvalid] }

/-- The invariants speak of the buffer and the scanner's flags only. -/
theorem Block.Inv.of_scanner_eq {p : Params} {b c : Block} (h : b.Inv p) (hq : c.q = b.q) (hready : c.ready = b.ready)
    (hneed : c.needMore = b.needMore) (hstage : c.stage = b.stage) : c.Inv p := by
  obtain ⟨fits, held, stageIff, readyNotWaiting, waits⟩ := h
  exact ⟨hq ▸ fits, hq ▸ hready ▸ held, hneed ▸ hstage ▸ stageIff, hready ▸ hneed ▸ readyNotWaiting,
    hq ▸ hstage ▸ waits⟩

/-- A block that waits for nothing needs its bound and its held frame only. -/
theorem Block.Inv.of_not_waiting {p : Params} {b : Block} (hneed : b.needMore = false) (hstage : b.stage = .none)
    (fits : b.q.length ≤ p.inbufCap) (held : b.ready = true → HeldFrame p.wireOrder b.q) : b.Inv p where
  fits := fits
  held := held
  stageIff := by simp [hneed, hstage]
  readyNotWaiting := fun _ => hneed
  waits := by rw [hstage]; trivial

variable {p : Params} {b : Block}

/-- While a frame is held nothing waits (R24). -/
theorem Block.Inv.stage_of_ready (h : b.Inv p) (hready : b.ready = true) : b.stage = .none := by
  by_contra hstage
  have hneed := h.stageIff.mpr hstage
  rw [h.readyNotWaiting hready] at hneed
  exact Bool.false_ne_true hneed

theorem Block.Inv.raiseErr (h : b.Inv p) (k : ErrorKind) : (b.raiseErr k).Inv p :=
  h.of_scanner_eq (by simp) (by simp) (by simp) (by simp)

theorem Block.Inv.pushByte (h : b.Inv p) (x : Byte) : (b.pushByte p x).Inv p := by
  rcases b.pushByte_cases p x with ⟨-, e⟩ | ⟨hroom, e⟩ <;> rw [e]
  · exact h.raiseErr .overflow
  · have hfits := h.fits
    refine .of_not_waiting rfl rfl ?_ fun hready => (h.held hready).append [x]
    rw [List.length_append, List.length_singleton]
    omega

theorem Block.Inv.popFrame (h : b.Inv p) : b.popFrame.Inv p := by
  rcases b.popFrame_cases with ⟨-, e⟩ | ⟨hready, e⟩ <;> rw [e]
  · exact h.raiseErr .noFrame
  · have hfits := h.fits
    refine .of_not_waiting (h.readyNotWaiting hready) (h.stage_of_ready hready) ?_ (absurd · Bool.false_ne_true)
    rw [List.length_drop]
    omega

theorem Block.Inv.scan (h : b.Inv p) : (b.scan p.wireOrder).Inv p := by
  have hfits : (b.scan p.wireOrder).q.length ≤ p.inbufCap := by
    obtain ⟨k, -, hq⟩ := b.scan_drop p.wireOrder
    have := h.fits
    rw [hq, List.length_drop]
    omega
  rcases b.scan_cases p.wireOrder with ⟨-, e⟩ | ⟨hready, k, hk, hwaits, e⟩ | ⟨-, hheld, e⟩ <;> rw [e] at hfits ⊢
  · exact h
  · exact {
      fits := hfits
      held := by simp [hready]
      stageIff := by simp [hk]
      readyNotWaiting := by simp [hready]
      waits := hwaits }
  · exact .of_not_waiting rfl rfl hfits fun _ => hheld

/-- Every command keeps the invariants. -/
theorem Block.Inv.after (h : b.Inv p) (i : Instr) : (b.after p i).Inv p := by
  cases i with
  | nop => exact h
  | push x => exact h.pushByte x
  | scan => exact h.scan
  | pop => exact h.popFrame
  | crcInit | crcUpdate | crcCheck | clearErr => exact h.of_scanner_eq rfl rfl rfl rfl
  | flush => exact .of_not_waiting rfl rfl (Nat.zero_le _) (absurd · Bool.false_ne_true)
  | softReset => exact Block.reset_inv p

theorem State.Inv.exec {s t : State} (h : s.Inv) (i : Instr) (he : exec i s = .next t) : t.Inv := by
  rw [exec_eq, Host.Outcome.next.injEq] at he
  subst he
  exact ⟨h.paramsOk, h.blockOk.after i⟩

/-- Every word keeps the invariants: a command's, and an ILLEGAL one (R173). -/
theorem State.Inv.performWord {s t : State} (h : s.Inv) (w : Word) (hw : performWord w s = .next t) : t.Inv := by
  cases hd : decode w with
  | command i => exact h.exec i (performWord_command hd s ▸ hw)
  | illegal r =>
    rw [performWord_illegal hd, Host.Outcome.next.injEq] at hw
    subst hw
    exact ⟨h.paramsOk, h.blockOk.raiseErr .illegal⟩

/-- The host's program and its log do not bear on the invariants. -/
theorem State.Inv.step {s t : State} (h : s.Inv) (hstep : step s = .next t) : t.Inv := by
  obtain ⟨e, rest, -, ⟨_, -, rfl⟩ | ⟨_, -, -, -, rfl⟩ | ⟨_, _, -, -, -, -, rfl⟩ | ⟨w, -, hw⟩⟩ := step_next_cases hstep
  · exact ⟨h.paramsOk, Block.reset_inv _⟩
  · exact ⟨h.paramsOk, h.blockOk⟩
  · exact ⟨h.paramsOk, h.blockOk⟩
  · have hrest : ({ s with pending := rest } : State).Inv := ⟨h.paramsOk, h.blockOk⟩
    exact hrest.performWord w hw

end Sys2Proof.Machine

namespace Sys2Proof.Proofs

open Sys2Proof.Machine

/-- Settles O42, by the kinds of event a step can perform and, for a command word, by the commands. -/
theorem stepKeepsInvariants : Obligations.StepKeepsInvariants := fun _ _ hinv hstep => hinv.step hstep

end Sys2Proof.Proofs
end

section
/-! PROOFS. What each register reads (10_state.md section 3). -/

namespace Sys2Proof.Machine

/-! ### A register by its offset -/

@[simp] theorem busRead_cmd (p : Params) (b : Block) : busRead p b 0x0000 = 0 := rfl
@[simp] theorem busRead_status (p : Params) (b : Block) : busRead p b 0x0004 = statusWord b := rfl
@[simp] theorem busRead_fill (p : Params) (b : Block) : busRead p b 0x0008 = fillWord b := rfl
@[simp] theorem busRead_params (p : Params) (b : Block) : busRead p b 0x000C = paramsWord p := rfl
@[simp] theorem busRead_frameInfo (p : Params) (b : Block) : busRead p b 0x0010 = frameInfoWord b := rfl
@[simp] theorem busRead_frameCrc (p : Params) (b : Block) : busRead p b 0x0014 = frameCrcWord b := rfl
@[simp] theorem busRead_crcValue (p : Params) (b : Block) : busRead p b 0x0018 = b.crcAcc.setWidth 32 := rfl
@[simp] theorem busRead_crcErrCnt (p : Params) (b : Block) : busRead p b 0x001C = b.crcErrCnt := rfl
@[simp] theorem busRead_frameCnt (p : Params) (b : Block) : busRead p b 0x0020 = b.frameCnt := rfl

theorem busRead_frameWin (p : Params) (b : Block) {i : Nat} (h : i ≤ 1028) :
    busRead p b (0x1000 + 4 * i) = frameWinWord b i :=
  busRead_offset p b (.frameWin i) fun _ hj => Reg.frameWin.inj hj ▸ h

/-! ### Fields and bits of a word, by its number -/

theorem field_eq_of_toNat {w : Word} {lo n : Nat} {x : BitVec n} (h : w.toNat / 2 ^ lo % 2 ^ n = x.toNat) :
    w.extractLsb' lo n = x :=
  BitVec.eq_of_toNat_eq ((field_toNat w lo n).trans h)

theorem field_eq_zero_of_toNat {w : Word} {lo n : Nat} (h : w.toNat / 2 ^ lo % 2 ^ n = 0) : w.extractLsb' lo n = 0 :=
  (field_eq_zero w lo n).mpr ((field_toNat w lo n).trans h)

theorem bit_eq_of_toNat {w : Word} {k : Nat} {f : Bool} (h : w.toNat / 2 ^ k % 2 = f.toNat) : w.getLsbD k = f := by
  rw [← BitVec.testBit_toNat, Nat.testBit_eq_decide_div_mod_eq, h]
  cases f <;> rfl

/-! ### STATUS -/

theorem flagWord_getLsbD (f : Bool) (k : Nat) : (flagWord f).getLsbD k = (decide (k = 0) && f) := by
  cases f <;> simp [flagWord]

/-- STATUS bit by bit (R33). -/
theorem statusWord_getLsbD (b : Block) {k : Nat} (hk : k < 32) :
    (statusWord b).getLsbD k =
      (decide (k = 16) && b.crcMatch || decide (k = 10) && b.errNoFrame || decide (k = 9) && b.errIllegal ||
        decide (k = 8) && b.errOverflow || decide (2 ≤ k) && b.stage.code.getLsbD (k - 2) ||
        decide (k = 1) && b.needMore || decide (k = 0) && b.ready) := by
  have shifted (f : Bool) (n : Nat) : (flagWord f <<< n).getLsbD k = (decide (k = n) && f) := by
    rw [BitVec.getLsbD_shiftLeft, flagWord_getLsbD]
    grind
  simp only [statusWord, BitVec.getLsbD_or, shifted, flagWord_getLsbD, BitVec.getLsbD_shiftLeft,
    BitVec.getLsbD_setWidth]
  grind

/-- A STAGE code has three bits. -/
theorem Stage.code_getLsbD (k : Stage) {i : Nat} (hi : 3 ≤ i) : k.code.getLsbD i = false :=
  BitVec.getLsbD_of_ge _ _ hi

/-- The flags of STATUS, each at its bit. -/
theorem statusWord_flags (b : Block) :
    (statusWord b).getLsbD 0 = b.ready ∧ (statusWord b).getLsbD 1 = b.needMore ∧
      (statusWord b).getLsbD 8 = b.errOverflow ∧ (statusWord b).getLsbD 9 = b.errIllegal ∧
      (statusWord b).getLsbD 10 = b.errNoFrame ∧ (statusWord b).getLsbD 16 = b.crcMatch := by
  refine ⟨?_, ?_, ?_, ?_, ?_, ?_⟩ <;> rw [statusWord_getLsbD b (by omega)] <;> simp

/-- A field of STATUS between the listed bits reads 0. -/
theorem statusWord_unlisted (b : Block) {lo n : Nat}
    (h : (lo, n) ∈ [(5, 3), (11, 5), (17, 15)]) : (statusWord b).extractLsb' lo n = 0 := by
  apply BitVec.eq_of_getLsbD_eq
  intro k hk
  simp only [List.mem_cons, Prod.mk.injEq, List.not_mem_nil, or_false] at h
  rw [BitVec.getLsbD_extractLsb', statusWord_getLsbD b (by omega), Stage.code_getLsbD _ (by omega)]
  grind

/-- The STAGE field of STATUS. -/
theorem statusWord_stage (b : Block) : (statusWord b).extractLsb' 2 3 = b.stage.code := by
  apply BitVec.eq_of_getLsbD_eq
  intro k hk
  rw [BitVec.getLsbD_extractLsb', statusWord_getLsbD b (by omega), Nat.add_sub_cancel_left]
  grind

theorem statusWord_reset : statusWord Block.reset = 0 := by decide

/-! ### The packed registers -/

theorem typeValid_of_long {q : List Byte} (h : 2 ≤ frameLen q) : typeValid q = true := decide_eq_true h

theorem typeValid_of_short {q : List Byte} (h : frameLen q < 2) : typeValid q = false := decide_eq_false (by omega)

theorem msgType_of_long {q : List Byte} (h : 2 ≤ frameLen q) :
    msgType q = byteAt q 3 ++ (byteAt q 4).extractLsb' 4 4 := if_pos (typeValid_of_long h)

/-- A payload under 2 bytes has no message type (R89). -/
theorem msgType_of_short {q : List Byte} (h : frameLen q < 2) : msgType q = 0 := by
  rw [msgType, typeValid_of_short h, if_neg Bool.false_ne_true]

theorem frameInfoWord_of_not_ready {b : Block} (h : b.ready = false) : frameInfoWord b = 0 := by
  simp [frameInfoWord, h]

theorem frameInfoWord_toNat {b : Block} (h : b.ready = true) :
    (frameInfoWord b).toNat =
      (typeValid b.q).toNat * 2 ^ 28 + (msgType b.q).toNat * 2 ^ 16 + (rsvField b.q).toNat * 2 ^ 10 +
        (lenField b.q).toNat := by
  rw [frameInfoWord, if_pos h]
  refine (append_toNat ((0 : BitVec 3) ++ BitVec.ofBool (typeValid b.q) ++ msgType b.q ++ rsvField b.q) _).trans ?_
  rw [append_toNat, append_toNat, append_toNat, BitVec.toNat_ofBool, show (0 : BitVec 3).toNat = 0 from rfl]
  omega

/-- The fields of FRAME_INFO while a frame is held (R36). -/
theorem frameInfoWord_fields {b : Block} (h : b.ready = true) :
    (frameInfoWord b).extractLsb' 0 10 = lenField b.q ∧ (frameInfoWord b).extractLsb' 10 6 = rsvField b.q ∧
      (frameInfoWord b).extractLsb' 16 12 = msgType b.q ∧ (frameInfoWord b).getLsbD 28 = typeValid b.q ∧
      (frameInfoWord b).extractLsb' 29 3 = 0 := by
  have hlen := (lenField b.q).isLt
  have hrsv := (rsvField b.q).isLt
  have htype := (msgType b.q).isLt
  have hvalid := (typeValid b.q).toNat_le
  refine ⟨field_eq_of_toNat ?_, field_eq_of_toNat ?_, field_eq_of_toNat ?_, bit_eq_of_toNat ?_,
    field_eq_zero_of_toNat ?_⟩ <;> rw [frameInfoWord_toNat h]
  all_goals omega

theorem frameCrcWord_of_not_ready {b : Block} (h : b.ready = false) : frameCrcWord b = 0 := by
  simp [frameCrcWord, h]

theorem frameCrcWord_toNat {b : Block} (h : b.ready = true) :
    (frameCrcWord b).toNat =
      (transmittedCrc b.q).1.toNat * 2 ^ 16 + (transmittedCrc b.q).2.1.toNat * 2 ^ 8 +
        (transmittedCrc b.q).2.2.toNat := by
  rw [frameCrcWord, if_pos h]
  refine (append_toNat ((0 : Byte) ++ (transmittedCrc b.q).1 ++ (transmittedCrc b.q).2.1) _).trans ?_
  rw [append_toNat, append_toNat, show (0 : Byte).toNat = 0 from rfl]
  omega

/-- The fields of FRAME_CRC while a frame is held, the same in either wire order (R37). -/
theorem frameCrcWord_fields {b : Block} (h : b.ready = true) :
    (frameCrcWord b).extractLsb' 16 8 = (transmittedCrc b.q).1 ∧
      (frameCrcWord b).extractLsb' 8 8 = (transmittedCrc b.q).2.1 ∧
      (frameCrcWord b).extractLsb' 0 8 = (transmittedCrc b.q).2.2 ∧ (frameCrcWord b).extractLsb' 24 8 = 0 := by
  have h0 := (transmittedCrc b.q).1.isLt
  have h1 := (transmittedCrc b.q).2.1.isLt
  have h2 := (transmittedCrc b.q).2.2.isLt
  refine ⟨field_eq_of_toNat ?_, field_eq_of_toNat ?_, field_eq_of_toNat ?_, field_eq_zero_of_toNat ?_⟩ <;>
    rw [frameCrcWord_toNat h]
  all_goals omega

theorem frameWinWord_inside {b : Block} {i : Nat} (h : b.ready = true) (hi : i < 6 + frameLen b.q) :
    frameWinWord b i = (byteAt b.q i).setWidth 32 :=
  if_pos ⟨h, (frameBytes_eq b.q).symm ▸ hi⟩

theorem frameWinWord_outside {b : Block} {i : Nat} (h : ¬ (b.ready = true ∧ i < 6 + frameLen b.q)) :
    frameWinWord b i = 0 :=
  if_neg ((frameBytes_eq b.q).symm ▸ h)

/-- R6 keeps INBUF_CAP in 16 bits. -/
theorem inbufCap_lt {p : Params} (h : p.wf = true) : p.inbufCap < 2 ^ 16 := by
  simp only [Params.wf, Bool.and_eq_true, decide_eq_true_eq] at h
  omega

/-- PARAMS as a number (R35). -/
theorem paramsWord_toNat {p : Params} (h : p.wf = true) :
    (paramsWord p).toNat = (decide (p.wireOrder = .lsbFirst)).toNat * 2 ^ 16 + p.inbufCap := by
  have hcap : p.inbufCap % 2 ^ 16 = p.inbufCap := Nat.mod_eq_of_lt (inbufCap_lt h)
  rw [paramsWord]
  cases p.wireOrder
  all_goals
    refine (append_toNat ((0 : BitVec 15) ++ (_ : BitVec 1)) _).trans ?_
    rw [BitVec.toNat_ofNat, hcap]
    rfl

end Sys2Proof.Machine

namespace Sys2Proof.Proofs

open Sys2Proof.Machine

/-- Settles O6: the step performs the word, and performing it is `exec` of its command or the error bit alone. -/
theorem cmdWritePerformsItsWord : Obligations.CmdWritePerformsItsWord := by
  intro s rest
  refine ⟨fun w hw => ⟨fun i hi => ?_, fun r hr => ?_⟩, fun hr => ?_⟩
  · rw [step_cmdWrite hw, performWord_command hi]
  · rw [step_cmdWrite hw, performWord_illegal hr]
    rfl
  · rw [step_read (by decide) (by decide) hr, busRead_cmd]

/-- Settles O11, from STATUS bit by bit. -/
theorem statusShowsTheFlags : Obligations.StatusShowsTheFlags := by
  refine ⟨fun p b => ?_, fun p => statusWord_reset, fun s rest d hd => ?_⟩
  · obtain ⟨hready, hneed, hoverflow, hillegal, hnoFrame, hmatch⟩ := statusWord_flags b
    refine ⟨hready, hneed, (statusWord_stage b).trans ?_, statusWord_unlisted b (by decide), hoverflow, hillegal,
      hnoFrame, statusWord_unlisted b (by decide), hmatch, statusWord_unlisted b (by decide)⟩
    cases b.stage <;> rfl
  · exact step_ignoredWrite (by decide) (by decide) (by decide) hd

/-- Settles O12: the invariant bounds the buffer by INBUF_CAP, and R6 bounds that by 65535. -/
theorem fillCountsTheBuffer : Obligations.FillCountsTheBuffer := by
  refine ⟨fun s hinv => ?_, fun p => rfl⟩
  have hcap := inbufCap_lt hinv.paramsOk
  have hfits := hinv.blockOk.fits
  have hfill : (fillWord s.block).toNat = s.block.q.length := by
    rw [fillWord, BitVec.toNat_ofNat]
    omega
  refine ⟨hfill, field_eq_zero_of_toNat ?_⟩
  rw [busRead_fill, hfill]
  omega

/-- Settles O13: PARAMS reads the parameters only, and no step changes those. -/
theorem paramsIsConstant : Obligations.ParamsIsConstant := by
  refine ⟨fun p b hwf => ?_, fun s t hstep => ?_⟩
  · have hw := paramsWord_toNat hwf
    have hcap : p.inbufCap < 2 ^ 16 := inbufCap_lt hwf
    have hbit := (decide (p.wireOrder = .lsbFirst)).toNat_le
    have horder : (paramsWord p).getLsbD 16 = decide (p.wireOrder = .lsbFirst) := bit_eq_of_toNat (by omega)
    refine ⟨?_, ?_, field_eq_zero_of_toNat ?_⟩ <;> rw [busRead_params]
    · rw [field_toNat]; omega
    · rw [horder, decide_eq_true_iff]
    · omega
  · rw [busRead_params, busRead_params, step_params hstep]

/-- Settles O14, from the fields of the packed word and the two cases of the payload's length. -/
theorem frameInfoFields : Obligations.FrameInfoFields := by
  intro p b
  refine ⟨frameInfoWord_of_not_ready, fun h => ?_⟩
  obtain ⟨hlen, hrsv, htype, hvalid, hzero⟩ := frameInfoWord_fields h
  exact ⟨congrArg BitVec.toNat hlen, hrsv,
    fun hlong => ⟨htype.trans (msgType_of_long hlong), hvalid.trans (typeValid_of_long hlong)⟩,
    fun hshort => ⟨htype.trans (msgType_of_short hshort), hvalid.trans (typeValid_of_short hshort)⟩, hzero⟩

/-- Settles O16: no wire order enters `transmittedCrc`, whose bytes the packed word shows. -/
theorem frameCrcIsRawCopy : Obligations.FrameCrcIsRawCopy :=
  fun _ _ => ⟨frameCrcWord_of_not_ready, frameCrcWord_fields⟩

/-- Settles O17: each offset reads its field, CRC_VALUE zero-extended. -/
theorem valueAndCounterRegisters : Obligations.ValueAndCounterRegisters := by
  intro p b
  have hlt := b.crcAcc.isLt
  have hvalue : (b.crcAcc.setWidth 32).toNat = b.crcAcc.toNat := BitVec.toNat_setWidth_of_le (by decide)
  refine ⟨field_eq_of_toNat ?_, field_eq_zero_of_toNat ?_, rfl, rfl, rfl, rfl, rfl⟩ <;> rw [busRead_crcValue, hvalue]
  all_goals omega

/-- Settles O18, by whether the entry is inside the held frame. -/
theorem frameWindowShowsTheFrame : Obligations.FrameWindowShowsTheFrame := by
  intro p b i hi
  simp only [busRead_frameWin p _ hi]
  exact ⟨frameWinWord_inside, frameWinWord_outside, frameWinWord_outside (by simp [Block.reset])⟩

end Sys2Proof.Proofs
end

section
/-! PROOFS. What each command leaves alone (10_state.md R21, R25 to R27, R42, R235). -/

namespace Sys2Proof.Machine

/-! ### The error bits bear on nothing else (R25) -/

theorem Block.clearErrors_pushByte (p : Params) (b : Block) (x : Byte) :
    (b.clearErrors.pushByte p x).clearErrors = (b.pushByte p x).clearErrors := by
  unfold Block.pushByte
  rw [Block.clearErrors_q]
  split <;> rfl

theorem Block.clearErrors_popFrame (b : Block) : b.clearErrors.popFrame.clearErrors = b.popFrame.clearErrors := by
  unfold Block.popFrame
  rw [Block.clearErrors_ready]
  split <;> rfl

theorem Block.clearErrors_applyScan (b : Block) (r : ScanResult) :
    (b.clearErrors.applyScan r).clearErrors = (b.applyScan r).clearErrors := by
  unfold Block.applyScan
  cases r.outcome <;> rfl

theorem Block.clearErrors_scan (o : WireOrder) (b : Block) :
    (b.clearErrors.scan o).clearErrors = (b.scan o).clearErrors := by
  unfold Block.scan
  rw [Block.clearErrors_ready, Block.clearErrors_q]
  split
  · rfl
  · exact b.clearErrors_applyScan _

/-- What a command leaves apart from the error bits does not depend on the error bits. -/
theorem Block.clearErrors_after (p : Params) (b : Block) (i : Instr) :
    (b.clearErrors.after p i).clearErrors = (b.after p i).clearErrors := by
  cases i with
  | push x => exact b.clearErrors_pushByte p x
  | scan => exact b.clearErrors_scan p.wireOrder
  | pop => exact b.clearErrors_popFrame
  | nop | crcInit | crcUpdate | crcCheck | clearErr | flush | softReset => rfl

theorem Block.after_errOverflow_sets {p : Params} {b : Block} {i : Instr} (h : (b.after p i).errOverflow = true) :
    b.errOverflow = true ∨ (∃ x, i = .push x) ∧ b.q.length = p.inbufCap := by
  cases i with
  | push x =>
    rcases b.pushByte_cases p x with ⟨hfull, -⟩ | ⟨-, e⟩
    · exact .inr ⟨⟨x, rfl⟩, hfull⟩
    · simp only [Block.after, e] at h
      exact .inl h
  | nop | scan | pop | crcInit | crcUpdate | crcCheck | flush => exact .inl (by simpa [Block.after] using h)
  | clearErr | softReset => exact absurd h Bool.false_ne_true

theorem Block.after_errNoFrame_sets {p : Params} {b : Block} {i : Instr} (h : (b.after p i).errNoFrame = true) :
    b.errNoFrame = true ∨ i = .pop ∧ b.ready = false := by
  cases i with
  | pop =>
    rcases b.popFrame_cases with ⟨hready, -⟩ | ⟨-, e⟩
    · exact .inr ⟨rfl, hready⟩
    · simp only [Block.after, e] at h
      exact .inl h
  | nop | push | scan | crcInit | crcUpdate | crcCheck | flush => exact .inl (by simpa [Block.after] using h)
  | clearErr | softReset => exact absurd h Bool.false_ne_true

/-- No command sets ERR_ILLEGAL: only an ILLEGAL word does (R173). -/
theorem Block.after_errIllegal_sets {p : Params} {b : Block} {i : Instr} (h : (b.after p i).errIllegal = true) :
    b.errIllegal = true := by
  cases i with
  | nop | push | scan | pop | crcInit | crcUpdate | crcCheck | flush => simpa [Block.after] using h
  | clearErr | softReset => exact absurd h Bool.false_ne_true

/-- Only CLEAR_ERR and SOFT_RESET clear an error bit. -/
theorem Block.after_errors_stay (p : Params) (b : Block) {i : Instr} (hclear : i ≠ .clearErr) (hreset : i ≠ .softReset) :
    (b.errOverflow = true → (b.after p i).errOverflow = true) ∧
      (b.errIllegal = true → (b.after p i).errIllegal = true) ∧
      (b.errNoFrame = true → (b.after p i).errNoFrame = true) := by
  cases i with
  | push x => rcases b.pushByte_cases p x with ⟨-, e⟩ | ⟨-, e⟩ <;> simp +contextual [Block.after, e]
  | pop => rcases b.popFrame_cases with ⟨-, e⟩ | ⟨-, e⟩ <;> simp +contextual [Block.after, e]
  | nop | scan | crcInit | crcUpdate | crcCheck | flush => simp [Block.after]
  | clearErr => exact absurd rfl hclear
  | softReset => exact absurd rfl hreset

/-! ### The counters (R27) -/

/-- FRAME_CNT counts the frame a SCAN takes, and nothing else. -/
theorem Block.scan_frameCnt (o : WireOrder) (b : Block) :
    (b.scan o).frameCnt = if b.ready = false ∧ (b.scan o).ready = true then b.frameCnt + 1 else b.frameCnt := by
  rcases b.scan_cases o with ⟨h, e⟩ | ⟨h, k, -, -, e⟩ | ⟨h, -, e⟩ <;> simp [e, h]

/-- A SCAN counts at most one mismatch for each buffered byte. -/
theorem Block.scan_crcErrCnt (o : WireOrder) (b : Block) :
    ∃ n ≤ b.q.length, (b.scan o).crcErrCnt = b.crcErrCnt + BitVec.ofNat 32 n := by
  obtain ⟨⟨k, hm, hk, -⟩, -⟩ := scanBytes_spec o b.q
  rcases b.scan_cases o with ⟨-, e⟩ | ⟨-, _, -, -, e⟩ | ⟨-, -, e⟩
  · exact ⟨0, Nat.zero_le _, by simp [e]⟩
  · exact ⟨_, hm.trans hk, by rw [e, Block.endNeedMore_crcErrCnt, Block.countMismatches_crcErrCnt]⟩
  · exact ⟨_, hm.trans hk, by rw [e, Block.endFrameReady_crcErrCnt, Block.countMismatches_crcErrCnt]⟩

theorem Block.after_counters (p : Params) (b : Block) {i : Instr} (hreset : i ≠ .softReset) (hscan : i ≠ .scan) :
    (b.after p i).frameCnt = b.frameCnt ∧ (b.after p i).crcErrCnt = b.crcErrCnt := by
  cases i with
  | nop | push | pop | crcInit | crcUpdate | crcCheck | clearErr | flush => simp [Block.after]
  | scan => exact absurd rfl hscan
  | softReset => exact absurd rfl hreset

/-! ### The CRC unit and the scanner (R26, R240) -/

/-- The block with other values in the CRC unit's fields. -/
def Block.withCrcUnit (b : Block) (acc : Crc) (m : Bool) : Block := { b with crcAcc := acc, crcMatch := m }

@[simp] theorem Block.withCrcUnit_q (b : Block) (acc : Crc) (m : Bool) : (b.withCrcUnit acc m).q = b.q := rfl
@[simp] theorem Block.withCrcUnit_ready (b : Block) (acc : Crc) (m : Bool) : (b.withCrcUnit acc m).ready = b.ready := rfl

theorem Block.withCrcUnit_pushByte (p : Params) (b : Block) (x : Byte) (acc : Crc) (m : Bool) :
    (b.withCrcUnit acc m).pushByte p x = (b.pushByte p x).withCrcUnit acc m := by
  unfold Block.pushByte
  rw [Block.withCrcUnit_q]
  split <;> rfl

theorem Block.withCrcUnit_popFrame (b : Block) (acc : Crc) (m : Bool) :
    (b.withCrcUnit acc m).popFrame = b.popFrame.withCrcUnit acc m := by
  unfold Block.popFrame
  rw [Block.withCrcUnit_ready]
  split <;> rfl

theorem Block.withCrcUnit_applyScan (b : Block) (r : ScanResult) (acc : Crc) (m : Bool) :
    (b.withCrcUnit acc m).applyScan r = (b.applyScan r).withCrcUnit acc m := by
  unfold Block.applyScan
  cases r.outcome <;> rfl

theorem Block.withCrcUnit_scan (o : WireOrder) (b : Block) (acc : Crc) (m : Bool) :
    (b.withCrcUnit acc m).scan o = (b.scan o).withCrcUnit acc m := by
  unfold Block.scan
  rw [Block.withCrcUnit_ready, Block.withCrcUnit_q]
  split
  · rfl
  · exact b.withCrcUnit_applyScan _ acc m

/-- The commands of the scanner and its buffer (R240). -/
def IsScannerCommand (i : Instr) : Prop := i = .scan ∨ i = .pop ∨ i = .flush ∨ ∃ x, i = .push x

theorem Block.after_crcUnit (p : Params) (b : Block) {i : Instr} (h : IsScannerCommand i) :
    (b.after p i).crcAcc = b.crcAcc ∧ (b.after p i).crcMatch = b.crcMatch := by
  obtain rfl | rfl | rfl | ⟨x, rfl⟩ := h <;> simp [Block.after]

/-- A scanner command does not read the CRC unit: other values there stay, and everything else comes out the same. -/
theorem Block.withCrcUnit_after (p : Params) (b : Block) {i : Instr} (h : IsScannerCommand i) (acc : Crc) (m : Bool) :
    (b.withCrcUnit acc m).after p i = (b.after p i).withCrcUnit acc m := by
  obtain rfl | rfl | rfl | ⟨x, rfl⟩ := h
  · exact b.withCrcUnit_scan p.wireOrder acc m
  · exact b.withCrcUnit_popFrame acc m
  · rfl
  · exact b.withCrcUnit_pushByte p x acc m

/-- A CRC command does not read the scanner: what it leaves in the CRC unit depends on the CRC unit alone, and the rest stays. -/
theorem Block.after_crcCommand (p : Params) (b : Block) {i : Instr}
    (h : i = .crcInit ∨ (∃ x, i = .crcUpdate x) ∨ ∃ t0 t1 t2, i = .crcCheck t0 t1 t2) :
    ∃ acc m, ∀ c : Block, c.crcAcc = b.crcAcc → c.crcMatch = b.crcMatch → c.after p i = c.withCrcUnit acc m := by
  obtain rfl | ⟨x, rfl⟩ | ⟨t0, t1, t2, rfl⟩ := h
  · exact ⟨crcInitValue, b.crcMatch, fun c _ hm => hm ▸ rfl⟩
  · exact ⟨crcStep b.crcAcc x, b.crcMatch, fun c ha hm => ha ▸ hm ▸ rfl⟩
  · exact ⟨b.crcAcc, crcMatches p.wireOrder b.crcAcc (t0, t1, t2), fun c ha _ => ha ▸ rfl⟩

/-! ### The flags (R42) -/

/-- FRAME_READY is set by SCAN only. -/
theorem Block.after_ready_set {p : Params} {b : Block} {i : Instr} (hb : b.ready = false)
    (h : (b.after p i).ready = true) : i = .scan := by
  cases i with
  | scan => rfl
  | nop | push | crcInit | crcUpdate | crcCheck | clearErr => simp [Block.after, hb] at h
  | pop | flush | softReset => simp [Block.after, Block.reset] at h

/-- FRAME_READY is cleared by POP, FLUSH and SOFT_RESET only. -/
theorem Block.after_ready_cleared {p : Params} {b : Block} {i : Instr} (hb : b.ready = true)
    (h : (b.after p i).ready = false) : i = .pop ∨ i = .flush ∨ i = .softReset := by
  cases i with
  | pop | flush | softReset => simp
  | scan => simp [Block.after, b.scan_of_ready, hb] at h
  | nop | push | crcInit | crcUpdate | crcCheck | clearErr => simp [Block.after, hb] at h

/-- NEED_MORE and STAGE change only in a SCAN without a held frame, or to cleared by an accepted PUSH, FLUSH or SOFT_RESET. -/
theorem Block.after_waiting_changes {p : Params} {b : Block} {i : Instr}
    (h : (b.after p i).needMore ≠ b.needMore ∨ (b.after p i).stage ≠ b.stage) :
    (i = .scan ∧ b.ready = false) ∨
      ((b.after p i).needMore = false ∧ (b.after p i).stage = .none ∧
        ((∃ x, i = .push x ∧ (b.after p i).q = b.q ++ [x]) ∨ i = .flush ∨ i = .softReset)) := by
  cases i with
  | scan =>
    cases hready : b.ready with
    | false => exact .inl ⟨rfl, rfl⟩
    | true => simp [Block.after, b.scan_of_ready, hready] at h
  | push x =>
    rcases b.pushByte_cases p x with ⟨-, e⟩ | ⟨-, e⟩
    · simp [Block.after, e] at h
    · refine .inr ⟨?_, ?_, .inl ⟨x, rfl, ?_⟩⟩ <;> rw [Block.after, e]
  | flush => exact .inr ⟨rfl, rfl, .inr (.inl rfl)⟩
  | softReset => exact .inr ⟨rfl, rfl, .inr (.inr rfl)⟩
  | nop | pop | crcInit | crcUpdate | crcCheck | clearErr => simp [Block.after] at h

/-- CRC_MATCH is written by CRC_CHECK and cleared by SOFT_RESET only. -/
theorem Block.after_crcMatch_changes {p : Params} {b : Block} {i : Instr} (h : (b.after p i).crcMatch ≠ b.crcMatch) :
    (∃ t0 t1 t2, i = .crcCheck t0 t1 t2) ∨ (i = .softReset ∧ (b.after p i).crcMatch = false) := by
  cases i with
  | crcCheck t0 t1 t2 => exact .inl ⟨t0, t1, t2, rfl⟩
  | softReset => exact .inr ⟨rfl, rfl⟩
  | nop | push | scan | pop | crcInit | crcUpdate | clearErr | flush => simp [Block.after] at h

/-! ### The buffer (R21, R141) -/

/-- An accepted PUSH appends its byte; every other command drops from the head. -/
theorem Block.after_q (p : Params) (b : Block) (i : Instr) :
    (∃ x, i = .push x ∧ (b.after p i).q = b.q ++ [x]) ∨ ∃ k ≤ b.q.length, (b.after p i).q = b.q.drop k := by
  have dropped (n : Nat) (h : (b.after p i).q = b.q.drop n) : ∃ k ≤ b.q.length, (b.after p i).q = b.q.drop k :=
    ⟨min n b.q.length, min_le_right _ _, h.trans List.drop_eq_drop_min⟩
  cases i with
  | push x =>
    rcases b.pushByte_cases p x with ⟨-, e⟩ | ⟨-, e⟩
    · exact .inr (dropped 0 (by rw [Block.after, e, Block.raiseErr_q, List.drop_zero]))
    · exact .inl ⟨x, rfl, by rw [Block.after, e]⟩
  | scan => exact .inr (b.scan_drop p.wireOrder)
  | pop =>
    rcases b.popFrame_cases with ⟨-, e⟩ | ⟨-, e⟩
    · exact .inr (dropped 0 (by rw [Block.after, e, Block.raiseErr_q, List.drop_zero]))
    · exact .inr (dropped (6 + frameLen b.q) (by rw [Block.after, e]))
  | nop | crcInit | crcUpdate | crcCheck | clearErr => exact .inr (dropped 0 rfl)
  | flush | softReset => exact .inr (dropped b.q.length List.drop_length.symm)

end Sys2Proof.Machine

namespace Sys2Proof.Proofs

open Sys2Proof.Machine

/-- Settles O45: both results agree with the result from the block without error bits. -/
theorem errorBitsAreSticky : Obligations.ErrorBitsAreSticky := by
  intro i s
  refine ⟨_, exec_eq i s, Block.after_errOverflow_sets, Block.after_errNoFrame_sets, Block.after_errIllegal_sets,
    s.block.after_errors_stay s.params, fun e1 e2 e3 => ⟨_, exec_eq i _, ?_⟩⟩
  have same (b : Block) := b.clearErrors_after s.params i
  have hafter := (same { s.block with errOverflow := e1, errIllegal := e2, errNoFrame := e3 }).symm.trans (same s.block)
  simp only [State.withBlock, hafter]

/-- Settles O47, by the scan's counts; a register write other than to CMD leaves the whole block. -/
theorem countersOnlyCount : Obligations.CountersOnlyCount := by
  refine ⟨fun i s => ⟨_, exec_eq i s, ?_, s.block.after_counters s.params, ?_⟩, fun s rest off d hoff h4 h0 hd => ?_⟩
  · rintro rfl
    exact ⟨rfl, rfl⟩
  · rintro rfl
    exact ⟨s.block.scan_frameCnt _, s.block.scan_crcErrCnt _⟩
  · exact ⟨_, step_ignoredWrite hoff h4 h0 hd, rfl, rfl⟩

/-- Settles O48: the scanner's commands commute with changing the CRC unit, and the CRC commands are such a change. -/
theorem crcUnitAndScannerDoNotInterfere : Obligations.CrcUnitAndScannerDoNotInterfere := by
  refine ⟨fun i s hi => ?_, fun i s hi => ?_⟩
  · obtain ⟨hacc, hmatch⟩ := s.block.after_crcUnit s.params hi
    refine ⟨_, exec_eq i s, hacc, hmatch, fun acc m => (exec_eq i _).trans ?_⟩
    exact congrArg (fun b => Host.Outcome.next (s.withBlock b)) (s.block.withCrcUnit_after s.params hi acc m)
  · obtain ⟨acc, m, h⟩ := s.block.after_crcCommand s.params hi
    refine ⟨acc, m, fun b hacc hmatch => (exec_eq i _).trans ?_⟩
    exact congrArg (fun b => Host.Outcome.next (s.withBlock b)) (h b hacc hmatch)

/-- Settles O49, flag by flag. -/
theorem flagsChangeOnlyAsListed : Obligations.FlagsChangeOnlyAsListed := fun i s =>
  ⟨_, exec_eq i s, Block.after_ready_set, Block.after_ready_cleared, Block.after_waiting_changes,
    Block.after_crcMatch_changes⟩

/-- Settles O50. A POP that would drop past the end drops the whole buffer. -/
theorem bufferIsAFifo : Obligations.BufferIsAFifo := fun i s => ⟨_, exec_eq i s, s.block.after_q s.params i⟩

end Sys2Proof.Proofs
end

section
/-! PROOFS. What a held frame's registers read does not change while it is held (10_state.md R23, R235). -/

namespace Sys2Proof.Machine

/-! ### The bytes of a whole frame, whatever follows it -/

theorem lenField_append {q : List Byte} (h : 3 ≤ q.length) (r : List Byte) : lenField (q ++ r) = lenField q := by
  simp only [lenField, byteAt_append (show 1 < q.length by omega), byteAt_append (show 2 < q.length by omega)]

theorem rsvField_append {q : List Byte} (h : 2 ≤ q.length) (r : List Byte) : rsvField (q ++ r) = rsvField q := by
  simp only [rsvField, byteAt_append (show 1 < q.length by omega)]

theorem typeValid_append {q : List Byte} (h : 3 ≤ q.length) (r : List Byte) : typeValid (q ++ r) = typeValid q := by
  simp only [typeValid, frameLen_append h]

theorem msgType_append {q : List Byte} (h : 5 ≤ q.length) (r : List Byte) : msgType (q ++ r) = msgType q := by
  simp only [msgType, typeValid_append (show 3 ≤ q.length by omega), byteAt_append (show 3 < q.length by omega),
    byteAt_append (show 4 < q.length by omega)]

theorem transmittedCrc_append {q : List Byte} (h : 6 + frameLen q ≤ q.length) (r : List Byte) :
    transmittedCrc (q ++ r) = transmittedCrc q := by
  simp only [transmittedCrc, frameLen_append (show 3 ≤ q.length by omega),
    byteAt_append (show 3 + frameLen q < q.length by omega), byteAt_append (show 4 + frameLen q < q.length by omega),
    byteAt_append (show 5 + frameLen q < q.length by omega)]

/-! ### The registers of a held frame -/

section
variable {b c : Block} {r : List Byte} (hb : b.ready = true) (hc : c.ready = true) (hq : c.q = b.q ++ r)
  (hwhole : 6 + frameLen b.q ≤ b.q.length)
include hb hc hq hwhole

theorem frameInfoWord_append : frameInfoWord c = frameInfoWord b := by
  simp only [frameInfoWord, hb, hc, hq, lenField_append (show 3 ≤ b.q.length by omega),
    rsvField_append (show 2 ≤ b.q.length by omega), msgType_append (show 5 ≤ b.q.length by omega),
    typeValid_append (show 3 ≤ b.q.length by omega)]

theorem frameCrcWord_append : frameCrcWord c = frameCrcWord b := by
  simp only [frameCrcWord, hb, hc, hq, transmittedCrc_append hwhole]

theorem frameWinWord_append (i : Nat) : frameWinWord c i = frameWinWord b i := by
  have hlen : frameLen c.q = frameLen b.q := by rw [hq, frameLen_append (by omega)]
  by_cases hi : i < 6 + frameLen b.q
  · rw [frameWinWord_inside hb hi, frameWinWord_inside hc (hlen ▸ hi), hq, byteAt_append (by omega)]
  · rw [frameWinWord_outside fun h => hi h.2, frameWinWord_outside fun h => hi (hlen ▸ h.2)]

end

/-- An offset that is no multiple of 4 has no register. -/
theorem regAt_misaligned {off : Nat} (h4 : off % 4 ≠ 0) : regAt off = none := by
  unfold regAt
  split <;> first | omega | exact if_neg (by omega)

/-- In the range of FRAME_WIN an aligned offset reads its entry, and any other reads 0. -/
theorem busRead_window (p : Params) (b : Block) {off : Nat} (h : 0x1000 ≤ off ∧ off ≤ 0x2010) :
    busRead p b off = if off % 4 = 0 then frameWinWord b ((off - 0x1000) / 4) else 0 := by
  split
  · rw [← busRead_frameWin p b (show (off - 0x1000) / 4 ≤ 1028 by omega)]
    congr 1
    omega
  · rw [busRead, regAt_misaligned ‹_›]

/-! ### SCANs and PUSHes while a frame is held -/

/-- The commands that do not release a held frame. -/
def IsScanOrPush (i : Instr) : Prop := i = .scan ∨ ∃ x, i = .push x

/-- A SCAN or a PUSH keeps a held frame and the frame counter, and the bytes before the tail. -/
theorem Block.after_scanOrPush {p : Params} {b : Block} {i : Instr} (h : IsScanOrPush i) (hready : b.ready = true) :
    (b.after p i).ready = true ∧ b.q <+: (b.after p i).q ∧ (b.after p i).frameCnt = b.frameCnt := by
  obtain rfl | ⟨x, rfl⟩ := h
  · rw [Block.after, b.scan_of_ready _ hready]
    exact ⟨hready, List.prefix_rfl, rfl⟩
  · refine ⟨by simp [Block.after, hready], ?_, by simp [Block.after]⟩
    rcases b.pushByte_cases p x with ⟨-, e⟩ | ⟨-, e⟩ <;> rw [Block.after, e]
    · rw [Block.raiseErr_q]
    · exact List.prefix_append _ _

theorem execAll_scansAndPushes {cmds : List Instr} (hcmds : ∀ i ∈ cmds, IsScanOrPush i) {s : State}
    (hready : s.block.ready = true) :
    ∃ t, execAll cmds s = .next t ∧ t.params = s.params ∧ t.block.ready = true ∧ s.block.q <+: t.block.q ∧
      t.block.frameCnt = s.block.frameCnt := by
  induction cmds generalizing s with
  | nil => exact ⟨s, rfl, rfl, hready, List.prefix_rfl, rfl⟩
  | cons i is ih =>
    rw [List.forall_mem_cons] at hcmds
    obtain ⟨hready', hq', hcnt'⟩ := Block.after_scanOrPush (p := s.params) hcmds.1 hready
    obtain ⟨t, ht, hp, htready, hq, hcnt⟩ := ih hcmds.2 (s := s.withBlock (s.block.after s.params i)) hready'
    exact ⟨t, (execAll_cons (exec_eq i s) is).trans ht, hp, htready, hq'.trans hq, hcnt.trans hcnt'⟩

end Sys2Proof.Machine

namespace Sys2Proof.Proofs

open Sys2Proof.Machine

/-- Settles O51: the buffer only grows at its tail, and the held frame's registers read its head. -/
theorem heldFrameStaysUntilReleased : Obligations.HeldFrameStaysUntilReleased := by
  intro s cmds hinv hready hcmds
  obtain ⟨t, ht, -, htready, hq, hcnt⟩ := execAll_scansAndPushes hcmds hready
  refine ⟨t, ht, htready, hq, fun off hoff => ?_⟩
  obtain ⟨r, hr⟩ := hq
  have hwhole := (hinv.blockOk.held hready).whole
  rcases hoff with rfl | rfl | rfl | hwin
  · exact frameInfoWord_append hready htready hr.symm hwhole
  · exact frameCrcWord_append hready htready hr.symm hwhole
  · exact hcnt
  · rw [busRead_window _ _ hwin, busRead_window _ _ hwin, frameWinWord_append hready htready hr.symm hwhole]

end Sys2Proof.Proofs
end

section
/-! PROOFS. The header fields of a frame as bit fields of its bytes (30_encoding.md R87 to R89). -/

namespace Sys2Proof.Machine

/-! ### `getbitu` on the bytes it crosses (R10) -/

theorem getbitu_add (s : List Byte) (k m n : Nat) :
    getbitu s k (m + n) = getbitu s k m * 2 ^ n + getbitu s (k + m) n := by
  induction n with
  | zero => simp [getbitu]
  | succ n ih =>
    rw [← Nat.add_assoc, getbitu, ih, getbitu, Nat.add_assoc k m n]
    ring

/-- A bit of a byte as a number. -/
theorem toNat_getLsbD (x : Byte) (k : Nat) : (x.getLsbD k).toNat = x.toNat / 2 ^ k % 2 := by
  rw [← BitVec.testBit_toNat, Nat.toNat_testBit]

/-- Inside one byte `getbitu` is that byte's bits `[m + n - 1 : m]`. -/
theorem getbitu_byte (s : List Byte) (i j n m : Nat) (h : j + n + m = 8) :
    getbitu s (8 * i + j) n = (byteAt s i).toNat / 2 ^ m % 2 ^ n := by
  induction n generalizing m with
  | zero => simp [getbitu, Nat.mod_one]
  | succ n ih =>
    have hbit : streamBit s (8 * i + j + n) = (byteAt s i).getLsbD m := by
      rw [streamBit]
      congr 2 <;> omega
    rw [getbitu, ih (m + 1) (by omega), hbit, toNat_getLsbD, Nat.pow_succ, ← Nat.div_div_eq_div_mul, Nat.pow_succ',
      Nat.mod_mul, Nat.add_comm]

/-! ### The fields -/

theorem byteAt_slice {q : List Byte} {a n i : Nat} (h : i < n) : byteAt ((q.drop a).take n) i = byteAt q (a + i) := by
  simp [byteAt, List.getD_eq_getElem?_getD, List.getElem?_take_of_lt h]

theorem getElem!_eq_byteAt (q : List Byte) (i : Nat) : q[i]! = byteAt q i := by
  rw [byteAt, List.getElem!_eq_getElem?_getD, List.getD_eq_getElem?_getD]
  rfl

theorem frameLen_eq (q : List Byte) : frameLen q = (byteAt q 1).toNat % 4 * 256 + (byteAt q 2).toNat := by
  rw [frameLen, lenField]
  refine (append_toNat _ _).trans ?_
  rw [BitVec.extractLsb'_toNat, Nat.shiftRight_zero]
  rfl

theorem rsvField_toNat (q : List Byte) : (rsvField q).toNat = (byteAt q 1).toNat / 4 := by
  have hlt := (byteAt q 1).isLt
  rw [rsvField, BitVec.extractLsb'_toNat, Nat.shiftRight_eq_div_pow]
  omega

theorem msgType_toNat {q : List Byte} (h : 2 ≤ frameLen q) :
    (msgType q).toNat = (byteAt q 3).toNat * 16 + (byteAt q 4).toNat / 16 := by
  have hlt := (byteAt q 4).isLt
  rw [msgType_of_long h]
  refine (append_toNat _ _).trans ?_
  rw [BitVec.extractLsb'_toNat, Nat.shiftRight_eq_div_pow]
  omega

/-- A 12-bit field at the start of a byte sequence: one byte and the top half of the next. -/
theorem getbitu_zero_twelve (s : List Byte) :
    getbitu s 0 12 = (byteAt s 0).toNat * 16 + (byteAt s 1).toNat / 16 := by
  have h0 := (byteAt s 0).isLt
  have h1 := (byteAt s 1).isLt
  rw [getbitu_add s 0 8 4, getbitu_byte s 0 0 8 0 rfl, getbitu_byte s 1 0 4 4 rfl]
  omega

/-- The message type is the 12-bit field at the start of the payload (R89). -/
theorem msgType_eq_getbitu {q : List Byte} (h : 2 ≤ frameLen q) :
    (msgType q).toNat = getbitu ((q.drop 3).take (frameLen q)) 0 12 := by
  rw [msgType_toNat h, getbitu_zero_twelve, byteAt_slice (by omega), byteAt_slice (by omega)]

/-- The length is the 10-bit field at bit 6 of the header (R87). -/
theorem frameLen_eq_getbitu (q : List Byte) : frameLen q = getbitu ((q.drop 1).take 2) 6 10 := by
  have hlt := (byteAt q 2).isLt
  have h1 : byteAt ((q.drop 1).take 2) 0 = byteAt q 1 := byteAt_slice (by omega)
  have h2 : byteAt ((q.drop 1).take 2) 1 = byteAt q 2 := byteAt_slice (by omega)
  rw [frameLen_eq, getbitu_add _ 6 2 8, getbitu_byte _ 0 6 2 0 rfl, getbitu_byte _ 1 0 8 0 rfl, h1, h2]
  omega

/-- The reserved bits are the 6-bit field at bit 0 of the header (R88). -/
theorem rsvField_eq_getbitu (q : List Byte) : (rsvField q).toNat = getbitu ((q.drop 1).take 2) 0 6 := by
  have hlt := (byteAt q 1).isLt
  have h1 : byteAt ((q.drop 1).take 2) 0 = byteAt q 1 := byteAt_slice (by omega)
  rw [rsvField_toNat, getbitu_byte _ 0 0 6 2 rfl, h1]
  omega

end Sys2Proof.Machine

namespace Sys2Proof.Proofs

open Sys2Proof.Machine

/-- Settles O15: each field is the bits `getbitu` reads, byte by byte. -/
theorem headerFieldsAreBigEndian : Obligations.HeaderFieldsAreBigEndian := by
  intro q _
  simp only [getElem!_eq_byteAt]
  refine ⟨?_, frameLen_eq_getbitu q, frameLen_le q, rsvField_eq_getbitu q,
    fun hlong _ => ⟨typeValid_of_long hlong, msgType_eq_getbitu hlong, msgType_toNat hlong⟩,
    fun hshort => ⟨typeValid_of_short hshort, msgType_of_short hshort⟩⟩
  rw [frameLen_eq, Nat.and_two_pow_sub_one_eq_mod _ 2]

end Sys2Proof.Proofs
end

section
/-! PROOFS. A frame laid out by R86 is a held frame, and a scan finds it behind any bytes without a preamble. -/

namespace Sys2Proof.Machine

/-! ### The frame that `makeFrame` lays out (R86) -/

/-- The bytes the CRC of `makeFrame` covers: preamble, length header and payload (R91). -/
def frameBody (rsv : BitVec 6) (payload : List Byte) : List Byte :=
  preamble :: (rsv ++ (BitVec.ofNat 10 payload.length).extractLsb' 8 2) ::
    (BitVec.ofNat 10 payload.length).extractLsb' 0 8 :: payload

/-- Three transmitted bytes as a list. -/
def crcList (t : Byte × Byte × Byte) : List Byte := [t.1, t.2.1, t.2.2]

theorem makeFrame_eq (o : WireOrder) (rsv : BitVec 6) (payload : List Byte) :
    makeFrame o rsv payload = frameBody rsv payload ++ crcList (crcBytes o (crc24q (frameBody rsv payload))) := rfl

theorem frameBody_length (rsv : BitVec 6) (payload : List Byte) :
    (frameBody rsv payload).length = 3 + payload.length := by
  simp only [frameBody, List.length_cons]
  omega

theorem makeFrame_length (o : WireOrder) (rsv : BitVec 6) (payload : List Byte) :
    (makeFrame o rsv payload).length = 6 + payload.length := by
  rw [makeFrame_eq, List.length_append, frameBody_length]
  simp only [crcList, List.length_cons, List.length_nil]
  omega

/-- The two header bytes as numbers (R87, R88). -/
theorem makeFrame_header (o : WireOrder) (rsv : BitVec 6) {payload : List Byte} (h : payload.length ≤ 1023) :
    (byteAt (makeFrame o rsv payload) 1).toNat = rsv.toNat * 4 + payload.length / 256 ∧
      (byteAt (makeFrame o rsv payload) 2).toNat = payload.length % 256 := by
  have hlen : payload.length % 2 ^ 10 = payload.length := by omega
  constructor
  · refine (append_toNat rsv ((BitVec.ofNat 10 payload.length).extractLsb' 8 2)).trans ?_
    rw [BitVec.extractLsb'_toNat, Nat.shiftRight_eq_div_pow, BitVec.toNat_ofNat, hlen]
    omega
  · refine (BitVec.extractLsb'_toNat 0 8 (BitVec.ofNat 10 payload.length)).trans ?_
    rw [Nat.shiftRight_zero, BitVec.toNat_ofNat, hlen]

theorem frameLen_makeFrame (o : WireOrder) (rsv : BitVec 6) {payload : List Byte} (h : payload.length ≤ 1023) :
    frameLen (makeFrame o rsv payload) = payload.length := by
  obtain ⟨h1, h2⟩ := makeFrame_header o rsv h
  rw [frameLen_eq, h1, h2]
  omega

theorem rsvField_makeFrame (o : WireOrder) (rsv : BitVec 6) {payload : List Byte} (h : payload.length ≤ 1023) :
    rsvField (makeFrame o rsv payload) = rsv := by
  obtain ⟨h1, -⟩ := makeFrame_header o rsv h
  apply BitVec.eq_of_toNat_eq
  rw [rsvField_toNat, h1]
  omega

theorem makeFrame_payload (o : WireOrder) (rsv : BitVec 6) (payload : List Byte) :
    ((makeFrame o rsv payload).drop 3).take payload.length = payload :=
  List.take_left

theorem byteAt_append_right (q r : List Byte) (i : Nat) : byteAt (q ++ r) (q.length + i) = byteAt r i := by
  rw [byteAt, List.getD_append_right _ _ _ _ (by omega), Nat.add_sub_cancel_left, byteAt]

/-- The transmitted bytes of `makeFrame` are its CRC's, so it is a held frame (R23). -/
theorem heldFrame_makeFrame (o : WireOrder) (rsv : BitVec 6) {payload : List Byte} (h : payload.length ≤ 1023) :
    HeldFrame o (makeFrame o rsv payload) where
  head := rfl
  whole := by rw [frameLen_makeFrame o rsv h, makeFrame_length]
  valid := by
    have hbody := frameBody_length rsv payload
    have hcovered : (makeFrame o rsv payload).take (3 + payload.length) = frameBody rsv payload :=
      List.take_left' hbody
    have hsent (i j : Nat) (hij : j = 3 + i) : byteAt (makeFrame o rsv payload) (j + payload.length) =
        byteAt (crcList (crcBytes o (crc24q (frameBody rsv payload)))) i := by
      rw [makeFrame_eq, show j + payload.length = (frameBody rsv payload).length + i by omega, byteAt_append_right]
    rw [frameValid_iff, frameLen_makeFrame o rsv h, hcovered, hsent 0 3 rfl, hsent 1 4 rfl, hsent 2 5 rfl]
    rfl

/-! ### The scan that finds it -/

/-- A scan drops the bytes before a whole valid frame and holds the frame (R122, R128). -/
theorem Block.scan_heldFrame {o : WireOrder} {b : Block} {garbage q : List Byte} (hready : b.ready = false)
    (hq : b.q = garbage ++ q) (hgarbage : ∀ x ∈ garbage, x ≠ preamble) (h : HeldFrame o q) :
    b.scan o = b.endFrameReady q := by
  obtain ⟨hhead, hwhole, hvalid⟩ := h
  obtain ⟨rest, rfl⟩ := List.head?_eq_some_iff.mp hhead
  have hexamine : examine o (preamble :: rest) = .frameReady := by rw [examine_whole hwhole, hvalid, if_pos rfl]
  have hscan : scanBytes o b.q = ⟨preamble :: rest, .frameReady, 0⟩ := by
    rw [hq, scanBytes_skipAll o hgarbage, scanBytes_frameReady hexamine]
  rw [Block.scan, hready, if_neg Bool.false_ne_true, hscan, Block.applyScan, Block.countMismatches_zero]

end Sys2Proof.Machine

namespace Sys2Proof.Proofs

open Sys2Proof.Machine

/-- Settles O26: the frame is held, so the registers of a held frame show its fields and its bytes. -/
theorem everyWellFormedFrameIsHeld : Obligations.EveryWellFormedFrameIsHeld := by
  intro s rsv payload garbage tail hready hpayload hgarbage frame hq
  have hheld : HeldFrame s.params.wireOrder frame := heldFrame_makeFrame _ rsv hpayload
  have hflen : frame.length = 6 + payload.length := makeFrame_length _ rsv payload
  have hlen : frameLen frame = payload.length := frameLen_makeFrame _ rsv hpayload
  have hrsv : rsvField frame = rsv := rsvField_makeFrame _ rsv hpayload
  have hpay : (frame.drop 3).take payload.length = payload := makeFrame_payload _ rsv payload
  clear_value frame
  have hscan : s.block.scan s.params.wireOrder = s.block.endFrameReady (frame ++ tail) :=
    Block.scan_heldFrame hready (hq.trans (List.append_assoc _ _ _)) hgarbage (hheld.append tail)
  have hlen' : frameLen (frame ++ tail) = payload.length := (frameLen_append (by omega) tail).trans hlen
  obtain ⟨hlenField, hrsvField, htypeField, -, -⟩ := frameInfoWord_fields (s.block.endFrameReady_ready (frame ++ tail))
  rw [Block.endFrameReady_q] at hlenField hrsvField htypeField
  refine ⟨hflen, s.withBlock (s.block.endFrameReady (frame ++ tail)), ?_, rfl, ?_, ?_, fun hlong => ?_, fun i hi => ?_⟩
  · rw [exec_eq, Block.after, hscan]
  · exact (congrArg BitVec.toNat hlenField).trans hlen'
  · exact hrsvField.trans ((rsvField_append (by omega) tail).trans hrsv)
  · have hfield : msgType (frame ++ tail) = msgType frame := msgType_append (by omega) tail
    refine (congrArg BitVec.toNat (htypeField.trans hfield)).trans ?_
    rw [msgType_eq_getbitu (hlen ▸ hlong), hlen, hpay]
  · have hinside : i < 6 + frameLen (frame ++ tail) := by omega
    rw [State.withBlock_block, busRead_frameWin _ _ (by omega),
      frameWinWord_inside (s.block.endFrameReady_ready _) hinside, Block.endFrameReady_q, byteAt_append hi]

end Sys2Proof.Proofs
end

section
/-! PROOFS. What a bus access does: reads, ignored writes, refusals, and when a step answers (20_memory.md R63, R64, R67). -/

namespace Sys2Proof.Machine

/-! ### Offsets of accesses -/

/-- An offset that R31 does not list reads 0, whatever the state (R63). -/
theorem busRead_unmapped (p : Params) (b : Block) {off : Nat} (h4 : off % 4 = 0) (hlo : 0x0020 < off)
    (hwin : ¬ (0x1000 ≤ off ∧ off ≤ 0x2010)) : busRead p b off = 0 := by
  rw [busRead, regAt_unmapped h4 hlo hwin]

theorem accessOffset_subWord (p : Params) {width : AccessWidth} {off : Nat} (hoff : off < 0x4000) (hw : width ≠ .w32) :
    accessOffset p width (p.baseAddr + off) = .refused .subWordAccess := by
  rw [accessOffset, if_neg (by simp only [apertureBytes]; omega), if_pos hw]

theorem accessOffset_misaligned (p : Params) {off : Nat} (hoff : off < 0x4000) (h4 : off % 4 ≠ 0) :
    accessOffset p .w32 (p.baseAddr + off) = .refused .misalignedAccess := by
  rw [accessOffset, if_neg (by simp only [apertureBytes]; omega), if_neg (by simp), Nat.add_sub_cancel_left, if_pos h4]

/-! ### Steps on an access, read or write -/

section
variable {s : State} {e : HostEvent} {rest : List HostEvent} (hp : s.pending = e :: rest)
include hp

theorem step_reset {src : ResetSource} (he : e = .reset src) :
    step s = .next { s with pending := rest, block := Block.reset } := by
  subst he
  exact step_cons hp

/-- An access whose offset is refused is refused whole, for a read and for a write alike (R64). -/
theorem step_refusedAccess {width : AccessWidth} {addr : Nat} {r : Refusal}
    (he : e = .read width addr ∨ ∃ d, e = .write width addr d)
    (hr : accessOffset s.params width addr = .refused r) : step s = .refused r := by
  rw [step_cons hp]
  obtain rfl | ⟨d, rfl⟩ := he
  · rw [performEvent, performRead, hr]
  · rw [performEvent, performWrite, hr]

/-- An aligned word access in the aperture never stops the block: a write to CMD performs its word, which always answers (R200). -/
theorem step_alignedAccess {off : Nat} (hoff : off < 0x4000) (h4 : off % 4 = 0)
    (he : e = .read .w32 (s.params.baseAddr + off) ∨ ∃ d, e = .write .w32 (s.params.baseAddr + off) d) :
    ∃ t, step s = .next t := by
  obtain rfl | ⟨d, rfl⟩ := he
  · exact ⟨_, step_read hoff h4 hp⟩
  · obtain rfl | h0 := eq_or_ne off 0
    · obtain ⟨b, hb⟩ := performWord_next d { s with pending := rest }
      exact ⟨_, (step_cmdWrite hp).trans hb⟩
    · exact ⟨_, step_ignoredWrite hoff h4 h0 hp⟩

end

/-- Two reads of one offset in a row return one value, since the first leaves what the second reads (R67). -/
theorem run_twoReads {s : State} {off : Nat} {rest : List HostEvent} (hoff : off < 0x4000) (h4 : off % 4 = 0)
    (h : s.pending = .read .w32 (s.params.baseAddr + off) :: .read .w32 (s.params.baseAddr + off) :: rest) :
    Host.Core.run core 2 s = .next { s with
      pending := rest
      readLog := s.readLog ++ [busRead s.params s.block off, busRead s.params s.block off] } := by
  rw [run_cons (step_read hoff h4 h), run_cons (step_read hoff h4 rfl), run_zero, List.append_assoc]
  rfl

/-- The word of PUSH 0 pushes a 0. -/
theorem performWord_pushZero (s : State) :
    performWord 0x10000000 s = .next (s.withBlock (s.block.pushByte s.params 0)) :=
  (performWord_command (i := .push 0) (by decide) s).trans (exec_eq _ s)

end Sys2Proof.Machine

namespace Sys2Proof.Proofs

open Sys2Proof.Machine

/-- Settles O7. The word that is not idempotent is a PUSH: from reset, the second one appends a second byte. -/
theorem readsHaveNoSideEffect : Obligations.ReadsHaveNoSideEffect := by
  refine ⟨fun s rest off hoff h4 => ⟨step_read hoff h4, fun h => ⟨_, run_twoReads hoff h4 h⟩,
    fun d h0 => step_ignoredWrite hoff h4 h0⟩, ?_⟩
  exact ⟨State.reset, _, _, 0x10000000, performWord_pushZero _, performWord_pushZero _, by decide⟩

/-- Settles O8: the map lists no register at such an offset, and CMD reads 0. -/
theorem unmappedAndWrongDirection : Obligations.UnmappedAndWrongDirection := by
  refine fun s rest off hoff h4 => ⟨fun hunlisted hread => ?_, fun d h0 => step_ignoredWrite hoff h4 h0⟩
  have hzero : busRead s.params s.block off = 0 := by
    obtain rfl | ⟨hlo, hwin⟩ := hunlisted
    · exact busRead_cmd _ _
    · exact busRead_unmapped _ _ h4 hlo hwin
  rw [step_read hoff h4 hread, hzero]

/-- Settles O9: the width is looked at before the alignment, and an access that passes both answers. -/
theorem subWordAndMisalignedRefused : Obligations.SubWordAndMisalignedRefused := by
  refine fun s rest e width off hoff hp he => ⟨fun hw => ?_, ?_, ?_⟩
  · exact step_refusedAccess hp he (accessOffset_subWord _ hoff hw)
  · rintro rfl h4
    exact step_refusedAccess hp he (accessOffset_misaligned _ hoff h4)
  · rintro rfl h4
    exact step_alignedAccess hp hoff h4 he

/-- Settles O10: the kinds of step that answer are these accesses and resets, and each of them answers. -/
theorem onlyUndefinedAccessesStop : Obligations.OnlyUndefinedAccessesStop := by
  refine fun s => ⟨fun ⟨t, ht⟩ => ?_, ?_⟩
  · obtain ⟨e, rest, hp, ⟨src, he, -⟩ | ⟨off, hoff, h4, he, -⟩ | ⟨off, d, hoff, h4, -, he, -⟩ | ⟨w, he, -⟩⟩ :=
      step_next_cases ht
    · exact ⟨e, rest, hp, .inl ⟨src, he⟩⟩
    · exact ⟨e, rest, hp, .inr ⟨off, hoff, h4, .inl he⟩⟩
    · exact ⟨e, rest, hp, .inr ⟨off, hoff, h4, .inr ⟨d, he⟩⟩⟩
    · exact ⟨e, rest, hp, .inr ⟨0, by decide, rfl, .inr ⟨w, he⟩⟩⟩
  · rintro ⟨e, rest, hp, ⟨src, he⟩ | ⟨off, hoff, h4, he⟩⟩
    · exact ⟨_, step_reset hp he⟩
    · exact step_alignedAccess hp hoff h4 he

end Sys2Proof.Proofs
end

section
/-! PROOFS. Encoding and decoding invert each other, the table of R82, and the ILLEGAL words (30_encoding.md). -/

namespace Sys2Proof

open Sys2Proof.Machine

/-! ### The fields of an encoded word (R80) -/

@[simp] theorem encodeFormN_op (op : BitVec 4) : (encodeFormN op).extractLsb' 28 4 = op :=
  field_eq_of_toNat (by rw [encodeFormN_toNat]; omega)

@[simp] theorem encodeFormN_mustBeZero (op : BitVec 4) : (encodeFormN op).extractLsb' 0 28 = 0 :=
  field_eq_zero_of_toNat (by rw [encodeFormN_toNat]; omega)

@[simp] theorem encodeFormB_op (op : BitVec 4) (b : Byte) : (encodeFormB op b).extractLsb' 28 4 = op :=
  field_eq_of_toNat (by rw [encodeFormB_toNat]; omega)

@[simp] theorem encodeFormB_mustBeZero (op : BitVec 4) (b : Byte) : (encodeFormB op b).extractLsb' 8 20 = 0 :=
  field_eq_zero_of_toNat (by rw [encodeFormB_toNat]; omega)

@[simp] theorem encodeFormB_byte (op : BitVec 4) (b : Byte) : (encodeFormB op b).extractLsb' 0 8 = b :=
  field_eq_of_toNat (by rw [encodeFormB_toNat]; omega)

section
variable (op : BitVec 4) (t0 t1 t2 : Byte)

@[simp] theorem encodeFormT_op : (encodeFormT op t0 t1 t2).extractLsb' 28 4 = op :=
  field_eq_of_toNat (by rw [encodeFormT_toNat]; omega)

@[simp] theorem encodeFormT_mustBeZero : (encodeFormT op t0 t1 t2).extractLsb' 24 4 = 0 :=
  field_eq_zero_of_toNat (by rw [encodeFormT_toNat]; omega)

@[simp] theorem encodeFormT_bytes :
    (encodeFormT op t0 t1 t2).extractLsb' 16 8 = t0 ∧ (encodeFormT op t0 t1 t2).extractLsb' 8 8 = t1 ∧
      (encodeFormT op t0 t1 t2).extractLsb' 0 8 = t2 := by
  refine ⟨field_eq_of_toNat ?_, field_eq_of_toNat ?_, field_eq_of_toNat ?_⟩ <;> rw [encodeFormT_toNat] <;> omega

end

/-! ### Decoding an encoded word -/

theorem decodeFormN_encodeFormN (op : BitVec 4) (i : Instr) : decodeFormN (encodeFormN op) i = .command i :=
  if_pos (encodeFormN_mustBeZero op)

theorem decodeFormB_encodeFormB (op : BitVec 4) (b : Byte) (f : Byte → Instr) :
    decodeFormB (encodeFormB op b) f = .command (f b) := by
  rw [decodeFormB, if_pos (encodeFormB_mustBeZero op b), encodeFormB_byte]

theorem decodeFormT_encodeFormT (op : BitVec 4) (t0 t1 t2 : Byte) (f : Byte → Byte → Byte → Instr) :
    decodeFormT (encodeFormT op t0 t1 t2) f = .command (f t0 t1 t2) := by
  obtain ⟨h0, h1, h2⟩ := encodeFormT_bytes op t0 t1 t2
  rw [decodeFormT, if_pos (encodeFormT_mustBeZero op t0 t1 t2), h0, h1, h2]

/-- The OP field of a command's word selects the form it was built in, and that form gives back the operands. -/
theorem decode_encode (i : Instr) : decode (encode i) = .command i := by
  cases i
  case push b | crcUpdate b =>
    rw [encode, decode, encodeFormB_op]
    exact decodeFormB_encodeFormB _ b _
  case crcCheck t0 t1 t2 =>
    rw [encode, decode, encodeFormT_op]
    exact decodeFormT_encodeFormT _ t0 t1 t2 _
  all_goals
    rw [encode, decode, encodeFormN_op]
    exact decodeFormN_encodeFormN _ _

/-! ### Encoding a decoded word -/

theorem encodeFormN_of_fields {w : Word} {op : BitVec 4} (hop : (w.extractLsb' 28 4).toNat = op.toNat)
    (hz : w.extractLsb' 0 28 = 0) : encodeFormN op = w := by
  apply BitVec.eq_of_toNat_eq
  obtain ⟨hw, -, -⟩ := word_toNat w
  rw [field_eq_zero] at hz
  rw [encodeFormN_toNat, hw, hop, hz, Nat.add_zero]

theorem encodeFormB_of_fields {w : Word} {op : BitVec 4} (hop : (w.extractLsb' 28 4).toNat = op.toNat)
    (hz : w.extractLsb' 8 20 = 0) : encodeFormB op (w.extractLsb' 0 8) = w := by
  apply BitVec.eq_of_toNat_eq
  obtain ⟨hw, hB, -⟩ := word_toNat w
  rw [field_eq_zero] at hz
  rw [encodeFormB_toNat, hw, hop, hB, hz, Nat.zero_mul, Nat.zero_add]

theorem encodeFormT_of_fields {w : Word} {op : BitVec 4} (hop : (w.extractLsb' 28 4).toNat = op.toNat)
    (hz : w.extractLsb' 24 4 = 0) :
    encodeFormT op (w.extractLsb' 16 8) (w.extractLsb' 8 8) (w.extractLsb' 0 8) = w := by
  apply BitVec.eq_of_toNat_eq
  obtain ⟨hw, -, hT⟩ := word_toNat w
  rw [field_eq_zero] at hz
  rw [encodeFormT_toNat, hw, hop, hT, hz]
  omega

/-- A word is the word of the command it decodes to, or ILLEGAL. -/
theorem decode_encoded_or_illegal (w : Word) :
    (∃ i, decode w = .command i ∧ encode i = w) ∨ ∃ r, decode w = .illegal r := by
  obtain ⟨hop, hz, hd⟩ | ⟨hop, hz, hd⟩ | ⟨hop, hz, hd⟩ | ⟨hop, hz, hd⟩ | ⟨hop, hz, hd⟩ | ⟨hop, hz, hd⟩ |
    ⟨hop, hz, hd⟩ | ⟨hop, hz, hd⟩ | ⟨hop, hz, hd⟩ | ⟨hop, hz, hd⟩ | ⟨-, hr⟩ := decode_cases w
  · exact .inl ⟨.nop, hd, encodeFormN_of_fields hop hz⟩
  · exact .inl ⟨.push _, hd, encodeFormB_of_fields hop hz⟩
  · exact .inl ⟨.scan, hd, encodeFormN_of_fields hop hz⟩
  · exact .inl ⟨.pop, hd, encodeFormN_of_fields hop hz⟩
  · exact .inl ⟨.crcInit, hd, encodeFormN_of_fields hop hz⟩
  · exact .inl ⟨.crcUpdate _, hd, encodeFormB_of_fields hop hz⟩
  · exact .inl ⟨.crcCheck _ _ _, hd, encodeFormT_of_fields hop hz⟩
  · exact .inl ⟨.clearErr, hd, encodeFormN_of_fields hop hz⟩
  · exact .inl ⟨.flush, hd, encodeFormN_of_fields hop hz⟩
  · exact .inl ⟨.softReset, hd, encodeFormN_of_fields hop hz⟩
  · exact .inr hr

/-- `decode` and `encode` are inverse to each other on the words that are commands. -/
theorem decode_eq_command_iff {w : Word} {i : Instr} : decode w = .command i ↔ encode i = w := by
  constructor
  · intro h
    obtain ⟨j, hd, hw⟩ | ⟨r, hd⟩ := decode_encoded_or_illegal w
    · cases hd.symm.trans h
      exact hw
    · cases hd.symm.trans h
  · rintro rfl
    exact decode_encode i

/-! ### The match and mask table (R82) -/

/-- The command of the same row with its operands read from the fields of `w` (R80). -/
def Instr.withOperandsOf (w : Word) : Instr → Instr
  | .push _ => .push (w.extractLsb' 0 8)
  | .crcUpdate _ => .crcUpdate (w.extractLsb' 0 8)
  | .crcCheck _ _ _ => .crcCheck (w.extractLsb' 16 8) (w.extractLsb' 8 8) (w.extractLsb' 0 8)
  | i => i

@[simp] theorem rowOf_withOperandsOf (w : Word) (i : Instr) : rowOf (i.withOperandsOf w) = rowOf i := by
  cases i <;> rfl

theorem encodedWordFitsRow (i : Instr) : Laws.EncodedWordFitsRow.Statement i :=
  open Laws.EncodedWordFitsRow in
  i.casesOn nop push scan pop crcInit crcUpdate crcCheck clearErr flush softReset

/-- The bits above the byte and the byte are the whole word. -/
theorem encodeFormB_of_masked {w : Word} {op : BitVec 4} (h : w &&& 0xFFFFFF00 = encodeFormB op 0) :
    encodeFormB op (w.extractLsb' 0 8) = w := by
  have hm := congrArg BitVec.toNat h
  rw [show (0xFFFFFF00 : Word) = ~~~ (BitVec.ofNat 32 (2 ^ 8 - 1)) from rfl, word_mask_toNat, encodeFormB_toNat,
    show (0 : Byte).toNat = 0 from rfl, Nat.add_zero] at hm
  apply BitVec.eq_of_toNat_eq
  rw [encodeFormB_toNat, field_toNat, ← hm]
  clear h hm
  omega

/-- The bits above the three bytes and the bytes are the whole word. -/
theorem encodeFormT_of_masked {w : Word} {op : BitVec 4} (h : w &&& 0xFF000000 = encodeFormT op 0 0 0) :
    encodeFormT op (w.extractLsb' 16 8) (w.extractLsb' 8 8) (w.extractLsb' 0 8) = w := by
  have hm := congrArg BitVec.toNat h
  rw [show (0xFF000000 : Word) = ~~~ (BitVec.ofNat 32 (2 ^ 24 - 1)) from rfl, word_mask_toNat, encodeFormT_toNat,
    show (0 : Byte).toNat = 0 from rfl, Nat.zero_mul, Nat.zero_mul, Nat.add_zero] at hm
  apply BitVec.eq_of_toNat_eq
  rw [encodeFormT_toNat, field_toNat, field_toNat, field_toNat, ← hm]
  clear h hm
  omega

/-- A word with a row's fixed bits is the word of that row's command with the word's own fields as operands. -/
theorem encode_of_fits {w : Word} {i : Instr} (h : (rowOf i).fits w = true) : encode (i.withOperandsOf w) = w := by
  have hw : w &&& (rowOf i).maskWord = (rowOf i).matchWord := by simpa [OpcodeRow.fits] using h
  cases i
  case push | crcUpdate => exact encodeFormB_of_masked hw
  case crcCheck => exact encodeFormT_of_masked hw
  all_goals exact hw.symm.trans (BitVec.and_allOnes (x := w))

/-- R82 for every command: its row's fixed bits, and its operands in their fields. -/
theorem decode_eq_command_iff_fits {w : Word} {i : Instr} :
    decode w = .command i ↔ (rowOf i).fits w = true ∧ i = i.withOperandsOf w := by
  rw [decode_eq_command_iff]
  constructor
  · rintro rfl
    have hfits := (encodedWordFitsRow i).1
    have hd := decode_eq_command_iff.mpr (encode_of_fits hfits)
    exact ⟨hfits, Decoded.command.inj ((decode_encode i).symm.trans hd)⟩
  · rintro ⟨hfits, hi⟩
    rw [hi]
    exact encode_of_fits hfits

/-- A row of the table fits the words of its own commands only. -/
theorem decode_of_fits {w : Word} {row : OpcodeRow} (hrow : row ∈ opcodeTable) (h : row.fits w = true) :
    ∃ i, decode w = .command i ∧ rowOf i = row := by
  have hrows : ∃ i, rowOf i = row := by
    simp only [opcodeTable, List.mem_cons, List.not_mem_nil, or_false] at hrow
    obtain rfl | rfl | rfl | rfl | rfl | rfl | rfl | rfl | rfl | rfl := hrow <;> exact ⟨_, rfl⟩
  obtain ⟨i, rfl⟩ := hrows
  exact ⟨_, decode_eq_command_iff.mpr (encode_of_fits h), rowOf_withOperandsOf w i⟩

/-- A word is ILLEGAL exactly when it matches no row (R82). -/
theorem decode_illegal_iff (w : Word) : (∃ r, decode w = .illegal r) ↔ ∀ row ∈ opcodeTable, row.fits w = false := by
  constructor
  · rintro ⟨r, hr⟩ row hrow
    by_contra hfits
    obtain ⟨i, hd, -⟩ := decode_of_fits hrow (Bool.eq_true_of_not_eq_false hfits)
    cases hd.symm.trans hr
  · intro hnone
    obtain ⟨i, -, rfl⟩ | hr := decode_encoded_or_illegal w
    · obtain ⟨hfits, hrow⟩ := encodedWordFitsRow i
      exact absurd hfits (by simp [hnone _ hrow])
    · exact hr

/-- No two rows match one word: the command it decodes to has one row (R82). -/
theorem opcodeTable_disjoint (w : Word) :
    opcodeTable.Pairwise fun r r' => ¬ (r.fits w = true ∧ r'.fits w = true) := by
  have hnodup : opcodeTable.Nodup := by decide
  refine List.Pairwise.imp_of_mem (fun hr hr' hne ⟨hfits, hfits'⟩ => hne ?_) hnodup
  obtain ⟨i, hd, rfl⟩ := decode_of_fits hr hfits
  obtain ⟨j, hd', rfl⟩ := decode_of_fits hr' hfits'
  cases hd.symm.trans hd'
  rfl

/-! ### ILLEGAL words (R83) -/

/-- A reserved OP, or a must-be-zero bit of the form of its OP, makes a word ILLEGAL. -/
theorem decode_illegal_of_fields {w : Word}
    (h : (9 ≤ (w.extractLsb' 28 4).toNat ∧ (w.extractLsb' 28 4).toNat ≤ 14) ∨
      ((w.extractLsb' 28 4).toNat ∈ [1, 5] ∧ w.extractLsb' 8 20 ≠ 0) ∨
      ((w.extractLsb' 28 4).toNat = 6 ∧ w.extractLsb' 24 4 ≠ 0) ∨
      ((w.extractLsb' 28 4).toNat ∈ [0, 2, 3, 4, 7, 8, 15] ∧ w.extractLsb' 0 28 ≠ 0)) :
    ∃ r, decode w = .illegal r := by
  obtain ⟨hop, hz, -⟩ | ⟨hop, hz, -⟩ | ⟨hop, hz, -⟩ | ⟨hop, hz, -⟩ | ⟨hop, hz, -⟩ | ⟨hop, hz, -⟩ |
    ⟨hop, hz, -⟩ | ⟨hop, hz, -⟩ | ⟨hop, hz, -⟩ | ⟨hop, hz, -⟩ | ⟨-, hr⟩ := decode_cases w
  on_goal 11 => exact hr
  all_goals exact absurd h (by simp [hop, hz])

end Sys2Proof

namespace Sys2Proof.Machine

/-! ### The words without an effect -/

/-- A block with a garbage byte, an error and a match set: two of these with different accumulators tell every command from NOP. -/
def Block.probe (acc : Crc) : Block := { Block.reset with q := [0], errOverflow := true, crcMatch := true, crcAcc := acc }

/-- Only NOP leaves both probes as they are. A CRC_UPDATE that kept both accumulators would, by linearity, keep their sum under the
byte 0; and CRC_CHECK cannot match both. -/
theorem Block.eq_nop_of_after_probe {i : Instr} (h1 : (Block.probe 1).after Params.reference i = Block.probe 1)
    (h2 : (Block.probe 2).after Params.reference i = Block.probe 2) : i = .nop := by
  cases i
  case nop => rfl
  case push x =>
    have hlen := congrArg (fun b => b.q.length) h1
    rw [Block.after, Block.pushByte_room (by decide)] at hlen
    exact absurd hlen (by simp)
  case crcUpdate x =>
    have hstep1 : crcStep 1 x = 1 := congrArg Block.crcAcc h1
    have hstep2 : crcStep 2 x = 2 := congrArg Block.crcAcc h2
    have hsum := crcStep_xor 1 2 x x
    rw [hstep1, hstep2, BitVec.xor_self] at hsum
    exact absurd hsum (by decide)
  case crcCheck t0 t1 t2 =>
    have hmatch1 := (crcMatches_iff _ _ _).mp (congrArg Block.crcMatch h1)
    have hmatch2 := (crcMatches_iff _ _ _).mp (congrArg Block.crcMatch h2)
    exact absurd (crcBytes_injective _ (hmatch1.trans hmatch2.symm)) (by decide)
  all_goals exact absurd h1 (by decide)

/-- The only word that changes no state is NOP's: an ILLEGAL word sets ERR_ILLEGAL in a probe (R83, R173). -/
theorem eq_zero_of_performWord_noop {w : Word} (h : ∀ s : State, performWord w s = .next s) : w = 0x00000000 := by
  have hprobe (acc : Crc) := h ((State.resetWith Params.reference).withBlock (Block.probe acc))
  obtain ⟨i, hd, rfl⟩ | ⟨r, hd⟩ := decode_encoded_or_illegal w
  · have hkeeps (acc : Crc) : (Block.probe acc).after Params.reference i = Block.probe acc :=
      congrArg State.block (Host.Outcome.next.inj
        ((exec_eq i _).symm.trans ((performWord_command hd _).symm.trans (hprobe acc))))
    rw [Block.eq_nop_of_after_probe (hkeeps 1) (hkeeps 2)]
    rfl
  · have hset := congrArg State.block (Host.Outcome.next.inj ((performWord_illegal hd _).symm.trans (hprobe 1)))
    exact absurd hset (by decide)

end Sys2Proof.Machine

namespace Sys2Proof.Proofs

open Sys2Proof.Machine

/-- Settles O2, by the form of each command's word. -/
theorem decodeOfEncode : Obligations.DecodeOfEncode := decode_encode

/-- Settles O1: one equivalence for all rows, read off for each command; a word has at most one row since it decodes once. -/
theorem decodeByMatchAndMask : Obligations.DecodeByMatchAndMask := by
  intro w
  have hrow {i : Instr} (hi : i = i.withOperandsOf w) :
      decode w = .command i ↔ w &&& (rowOf i).maskWord = (rowOf i).matchWord := by
    rw [decode_eq_command_iff_fits, OpcodeRow.fits, beq_iff_eq, and_iff_left hi]
  refine ⟨hrow rfl, fun b => ?_, hrow rfl, hrow rfl, hrow rfl, fun b => ?_, fun t0 t1 t2 => ?_, hrow rfl, hrow rfl,
    hrow rfl, decode_illegal_iff w, opcodeTable_disjoint w⟩
  all_goals rw [decode_eq_command_iff_fits, OpcodeRow.fits, beq_iff_eq, Instr.withOperandsOf]
  · rw [Instr.push.injEq]; rfl
  · rw [Instr.crcUpdate.injEq]; rfl
  · rw [Instr.crcCheck.injEq]; rfl

/-- Settles O3, the other direction of the round trip. -/
theorem encodeOfDecode : Obligations.EncodeOfDecode := fun _ _ => decode_eq_command_iff.mp

/-- Settles O4. No single state shows that a word is no NOP; two do, for every word at once. -/
theorem illegalWordsOnlySetErrIllegal : Obligations.IllegalWordsOnlySetErrIllegal := by
  refine fun w => ⟨fun hfields => ?_, eq_zero_of_performWord_noop⟩
  obtain ⟨r, hr⟩ := decode_illegal_of_fields hfields
  exact ⟨⟨r, hr⟩, performWord_illegal hr⟩

/-- Settles O5: the five commands' words are encodings, and the other two are read field by field. -/
theorem writtenOutWordsDecode : Obligations.WrittenOutWordsDecode :=
  ⟨decode_encode .nop, decode_encode (.push 0xD3), decode_encode .scan, decode_encode (.crcCheck 0x9F 0xEF 0x29),
    decode_encode .softReset, by decide, by decide⟩

end Sys2Proof.Proofs
end

section
/-! PROOFS. Host program lines and the commands they stand for (30_encoding.md R92, R93). -/

namespace Sys2Proof.Machine

/-- The step on a command's own word performs that command (R32, R82). -/
theorem step_commandWrite {s : State} {i : Instr} {rest : List HostEvent}
    (h : s.pending = commandWrite s.params (encode i) :: rest) : step s = exec i { s with pending := rest } :=
  (step_cmdWrite h).trans (performWord_command (decode_encode i) _)

/-- The accesses of a line that stands for commands are the writes of their words. -/
theorem HostLine.events_of_commands (p : Params) {l : HostLine} (h : l.commands ≠ []) :
    l.events p = l.commands.map fun i => commandWrite p (encode i) := by
  cases l
  case read | wrCmd => exact absurd rfl h
  all_goals rfl

/-- Writing the words of a list of commands to CMD, one step for each, performs the list. -/
theorem run_commandWrites (is : List Instr) {s : State} {rest : List HostEvent}
    (h : s.pending = is.map (fun i => commandWrite s.params (encode i)) ++ rest) :
    Host.Core.run core is.length s = execAll is { s with pending := rest } := by
  induction is generalizing s with
  | nil =>
    obtain rfl : s.pending = rest := h
    rfl
  | cons i is ih =>
    have hstep := (step_commandWrite h).trans (exec_eq i _)
    rw [List.length_cons, run_cons hstep, execAll_cons (exec_eq i _), ih rfl]
    rfl

end Sys2Proof.Machine

namespace Sys2Proof.Proofs

open Sys2Proof.Machine

/-- Settles O56: such a line's accesses are its commands' words, and each step decodes one back to its command. -/
theorem hostLinesPerformTheirCommands : Obligations.HostLinesPerformTheirCommands := by
  refine ⟨fun _ _ => ⟨rfl, rfl, rfl⟩, fun s l rest hcmds hp => run_commandWrites l.commands ?_⟩
  rw [hp, HostLine.events_of_commands s.params hcmds]

end Sys2Proof.Proofs
end

section
/-! PROOFS. The CRC-24Q function: one step, its table form, whole buffers and the transmitted bytes (40_crc24q.md R100 to R104,
R108 to R110). -/

namespace Sys2Proof.Machine

/-! ### A pass as a product with x, reduced by CRC_POLY (R100) -/

/-- One pass keeps all 25 bits of `2 r`, with CRC_POLY taken off when bit 24 is 1: then bit 24 of the result is 0. -/
theorem setWidth_crcShift (r : Crc) :
    (crcShift r).setWidth 25 = (r.setWidth 25 <<< 1) ^^^ (if r.getLsbD 23 then crcPoly else 0) := by
  apply BitVec.eq_of_getLsbD_eq
  intro k hk
  have hshift : ((r.setWidth 25) <<< 1).getLsbD k = (decide (0 < k) && r.getLsbD (k - 1)) := by
    rw [BitVec.getLsbD_shiftLeft, BitVec.getLsbD_setWidth, decide_eq_true hk, decide_eq_true (show k - 1 < 25 by omega),
      Bool.true_and, Bool.true_and, ← decide_not]
    exact congrArg (fun p => p && _) (decide_eq_decide.mpr (by omega))
  have hpoly : (if r.getLsbD 23 then crcPoly else 0).getLsbD k = (r.getLsbD 23 && crcPoly.getLsbD k) := by
    cases r.getLsbD 23 <;> simp
  rw [BitVec.getLsbD_setWidth, decide_eq_true hk, Bool.true_and, BitVec.getLsbD_xor, hshift, hpoly]
  rcases Nat.lt_or_ge k 24 with hlt | hge
  · rw [crcShift_getLsbD r k hlt, crcFeedback, BitVec.getLsbD_setWidth, decide_eq_true hlt, Bool.true_and]
  · obtain rfl : k = 24 := by omega
    rw [BitVec.getLsbD_of_ge _ _ (le_refl 24), show crcPoly.getLsbD 24 = true from rfl]
    simp

/-- A pass as R100 writes it: the reduction is by the 25-bit CRC_POLY, before the cut to 24 bits. -/
theorem crcShift_eq (r : Crc) :
    crcShift r = if r.getLsbD 23 then ((r.setWidth 25 <<< 1) ^^^ crcPoly).setWidth 24 else r <<< 1 := by
  by_cases h : r.getLsbD 23 = true
  · have hwide := congrArg (BitVec.setWidth 24) (setWidth_crcShift r)
    rw [BitVec.setWidth_setWidth_of_le _ (by decide), BitVec.setWidth_eq, if_pos h] at hwide
    rw [hwide, if_pos h]
  · rw [crcShift, if_neg h, if_neg h]

theorem crcShifts_eq_iterate (n : Nat) (r : Crc) : crcShifts n r = crcShift^[n] r := by
  induction n generalizing r with
  | zero => rfl
  | succ n ih => exact ih (crcShift r)

/-! ### The table form (R102) -/

/-- Passes that shift no 1 out are a plain shift. -/
theorem crcShifts_of_lt {n : Nat} {r : Crc} (h : r.toNat * 2 ^ n < 2 ^ 24) : crcShifts n r = r <<< n := by
  induction n generalizing r with
  | zero => exact (BitVec.shiftLeft_zero r).symm
  | succ n ih =>
    rw [Nat.pow_succ', ← Nat.mul_assoc] at h
    have hsmall : r.toNat * 2 < 2 ^ 24 := Nat.lt_of_le_of_lt (Nat.le_mul_of_pos_right _ (Nat.two_pow_pos n)) h
    have hshift : crcShift r = r <<< 1 := by
      rw [crcShift, if_neg]
      rw [← BitVec.testBit_toNat, Nat.testBit_lt_two_pow (by omega)]
      exact Bool.false_ne_true
    have hdouble : (r <<< 1).toNat = r.toNat * 2 := by
      rw [BitVec.toNat_shiftLeft, Nat.shiftLeft_eq]
      omega
    rw [crcShifts, hshift, ih (by rwa [hdouble]), ← BitVec.shiftLeft_add, Nat.add_comm]

/-- The accumulator is its top byte and the 16 bits below it. -/
theorem crc_eq_top_xor_low (c : Crc) :
    c = ((c.extractLsb' 16 8).setWidth 24 <<< 16) ^^^ (c.extractLsb' 0 16).setWidth 24 := by
  apply BitVec.eq_of_getLsbD_eq
  intro k hk
  simp only [BitVec.getLsbD_xor, BitVec.getLsbD_shiftLeft, BitVec.getLsbD_setWidth, BitVec.getLsbD_extractLsb']
  by_cases h : k < 16
  · simp [h, hk]
  · simp [h, hk, show k - 16 < 24 by omega, show k - 16 < 8 by omega, show 16 + (k - 16) = k by omega]

/-- Eight passes shift the low 16 bits up unreduced. -/
theorem crcShifts_low (c : Crc) : crcShifts 8 ((c.extractLsb' 0 16).setWidth 24) = c <<< 8 := by
  have hlow : ((c.extractLsb' 0 16).setWidth 24).toNat = c.toNat % 2 ^ 16 := by
    rw [BitVec.toNat_setWidth_of_le (by decide), BitVec.extractLsb'_toNat, Nat.shiftRight_zero]
  rw [crcShifts_of_lt (by rw [hlow]; omega)]
  apply BitVec.eq_of_toNat_eq
  rw [BitVec.toNat_shiftLeft, BitVec.toNat_shiftLeft, hlow, Nat.shiftLeft_eq, Nat.shiftLeft_eq]
  omega

theorem crcStep_zero (b : Byte) : crcStep 0 b = crcShifts 8 (b.setWidth 24 <<< 16) :=
  congrArg (crcShifts 8) BitVec.zero_xor

/-- The top byte of the accumulator and the byte fed in enter the step as one byte. -/
theorem crcStep_eq_table (c : Crc) (b : Byte) : crcStep c b = (c <<< 8) ^^^ crcStep 0 (c.extractLsb' 16 8 ^^^ b) := by
  have hsplit : c ^^^ (b.setWidth 24 <<< 16) =
      (c.extractLsb' 0 16).setWidth 24 ^^^ ((c.extractLsb' 16 8 ^^^ b).setWidth 24 <<< 16) := by
    rw [BitVec.setWidth_xor, BitVec.shiftLeft_xor_distrib, ← BitVec.xor_assoc,
      BitVec.xor_comm ((c.extractLsb' 0 16).setWidth 24), ← crc_eq_top_xor_low]
  rw [crcStep, hsplit, crcShifts_xor, crcShifts_low, crcStep_zero]

/-- A byte equal to the accumulator's top byte cancels it: nothing is left to reduce. -/
theorem crcStep_topByte (c : Crc) : crcStep c (c.extractLsb' 16 8) = c <<< 8 := by
  rw [crcStep_eq_table, BitVec.xor_self]
  exact (congrArg _ crcStep_zero_zero).trans BitVec.xor_zero

/-! ### A step loses nothing (R109) -/

theorem crcShifts_injective (n : Nat) : Function.Injective (crcShifts n) := by
  intro a b h
  have hzero : crcShifts n (a ^^^ b) = 0 := by rw [crcShifts_xor, h, BitVec.xor_self]; rfl
  exact BitVec.xor_eq_zero_iff.mp (crcShifts_eq_zero hzero)

theorem crcStep_left_inj {c d : Crc} {b : Byte} : crcStep c b = crcStep d b ↔ c = d :=
  ⟨fun h => (BitVec.xor_left_inj _).mp (crcShifts_injective 8 h), fun h => h ▸ rfl⟩

theorem crcStep_right_inj {c : Crc} {x y : Byte} : crcStep c x = crcStep c y ↔ x = y := by
  refine ⟨fun h => BitVec.eq_of_toNat_eq ?_, fun h => h ▸ rfl⟩
  have htop := congrArg BitVec.toNat ((BitVec.xor_right_inj _).mp (crcShifts_injective 8 h))
  simp only [BitVec.toNat_shiftLeft, BitVec.toNat_setWidth, Nat.shiftLeft_eq] at htop
  omega

/-! ### The whole buffer (R101, R108 to R110) -/

theorem crc24q_append_singleton (bytes : List Byte) (b : Byte) :
    crc24q (bytes ++ [b]) = crcStep (crc24q bytes) b := crc24q_append bytes [b]

/-- The accumulator before any bytes is not lost by feeding them. -/
theorem foldl_crcStep_inj {c d : Crc} (bytes : List Byte) :
    bytes.foldl crcStep c = bytes.foldl crcStep d ↔ c = d := by
  induction bytes generalizing c d with
  | nil => exact Iff.rfl
  | cons b bytes ih => exact ih.trans crcStep_left_inj

theorem crc24q_set {bytes : List Byte} {n : Nat} (hn : n < bytes.length) (x : Byte) :
    crc24q (bytes.set n x) = (bytes.drop (n + 1)).foldl crcStep (crcStep (crc24q (bytes.take n)) x) := by
  rw [List.set_eq_take_append_cons_drop, if_pos hn, crc24q_append, List.foldl_cons]

theorem set_byteAt {bytes : List Byte} {n : Nat} (hn : n < bytes.length) : bytes.set n (byteAt bytes n) = bytes := by
  rw [byteAt, List.getD_eq_getElem _ _ hn, List.set_getElem_self]

/-- A buffer with another byte in one place has another CRC (R109). -/
theorem crc24q_set_eq_iff {bytes : List Byte} {n : Nat} (hn : n < bytes.length) (x : Byte) :
    crc24q (bytes.set n x) = crc24q bytes ↔ x = byteAt bytes n := by
  have hself := crc24q_set hn (byteAt bytes n)
  rw [set_byteAt hn] at hself
  rw [crc24q_set hn, hself, foldl_crcStep_inj, crcStep_right_inj]

/-- Feeding the sum of two buffers of one length to the sum of two accumulators gives the sum of the results. -/
theorem foldl_crcStep_xor {a b : List Byte} (h : a.length = b.length) (c d : Crc) :
    (List.zipWith (· ^^^ ·) a b).foldl crcStep (c ^^^ d) = a.foldl crcStep c ^^^ b.foldl crcStep d := by
  induction a generalizing b c d with
  | nil =>
    obtain rfl := List.length_eq_zero_iff.mp h.symm
    rfl
  | cons x a ih =>
    obtain ⟨y, b, rfl⟩ := List.exists_cons_of_length_eq_add_one h.symm
    rw [List.zipWith_cons_cons, List.foldl_cons, crcStep_xor, ih (Nat.succ.inj h)]
    rfl

theorem crc24q_replicate_zero (n : Nat) : crc24q (List.replicate n 0x00) = 0 := by
  induction n with
  | zero => rfl
  | succ n ih => rw [List.replicate_succ', crc24q_append_singleton, ih, crcStep_zero_zero]

theorem extractLsb'_eq_of_toNat {c d : Crc} {i j : Nat}
    (h : c.toNat / 2 ^ i % 2 ^ 8 = d.toNat / 2 ^ j % 2 ^ 8) : c.extractLsb' i 8 = d.extractLsb' j 8 := by
  apply BitVec.eq_of_toNat_eq
  rwa [BitVec.extractLsb'_toNat, BitVec.extractLsb'_toNat, Nat.shiftRight_eq_div_pow, Nat.shiftRight_eq_div_pow]

/-- Each byte of the accumulator cancels the top byte in its turn, until nothing is left (R108). -/
theorem foldl_crcStep_msbFirst (c : Crc) : (crcList (crcBytes .msbFirst c)).foldl crcStep c = 0 := by
  have hmid : c.extractLsb' 8 8 = (c <<< 8).extractLsb' 16 8 := by
    apply extractLsb'_eq_of_toNat
    rw [BitVec.toNat_shiftLeft, Nat.shiftLeft_eq]
    omega
  have hlow : c.extractLsb' 0 8 = (c <<< 8 <<< 8).extractLsb' 16 8 := by
    apply extractLsb'_eq_of_toNat
    rw [← BitVec.shiftLeft_add, BitVec.toNat_shiftLeft, Nat.shiftLeft_eq]
    omega
  calc (crcList (crcBytes .msbFirst c)).foldl crcStep c
      = crcStep (crcStep (crcStep c (c.extractLsb' 16 8)) (c.extractLsb' 8 8)) (c.extractLsb' 0 8) := rfl
    _ = c <<< 8 <<< 8 <<< 8 := by
      rw [crcStep_topByte, hmid, crcStep_topByte, hlow, crcStep_topByte]
    _ = c <<< 24 := by rw [← BitVec.shiftLeft_add, ← BitVec.shiftLeft_add]
    _ = 0 := BitVec.shiftLeft_eq_zero (le_refl 24)

/-! ### The transmitted bytes (R103, R104, R107) -/

theorem crcBytes_append (t0 t1 t2 : Byte) : crcBytes .msbFirst (t0 ++ t1 ++ t2) = (t0, t1, t2) := by
  simp only [crcBytes, Prod.mk.injEq]
  refine ⟨?_, ?_, BitVec.extractLsb'_append_eq_right⟩ <;> rw [BitVec.extractLsb'_append_eq_of_le (by decide)]
  · exact BitVec.extractLsb'_append_eq_left
  · exact BitVec.extractLsb'_append_eq_right

/-- The comparison by position under MSB_FIRST is one of whole values. -/
theorem crcMatches_msbFirst (c : Crc) (t0 t1 t2 : Byte) :
    crcMatches .msbFirst c (t0, t1, t2) = decide (c = t0 ++ t1 ++ t2) := by
  rw [crcMatches, ← crcBytes_append, decide_eq_decide]
  exact ⟨crcBytes_injective .msbFirst, fun h => h ▸ rfl⟩

/-- LSB_FIRST sends the same three bytes from the other end. -/
theorem crcMatches_lsbFirst (c : Crc) (t0 t1 t2 : Byte) :
    crcMatches .lsbFirst c (t0, t1, t2) = decide (c = t2 ++ t1 ++ t0) := by
  rw [← crcMatches_msbFirst, crcMatches, crcMatches, decide_eq_decide]
  simp only [crcBytes, Prod.mk.injEq]
  tauto

/-- The CRC of a buffer validates the bytes that carry it, and no other bytes (R104). -/
theorem validate_iff (o : WireOrder) (a b : List Byte) :
    validate o a (crcBytes o (crc24q b)) = true ↔ crc24q a = crc24q b :=
  (crcMatches_iff o _ _).trans ⟨crcBytes_injective o, fun h => h ▸ rfl⟩

theorem validate_of_ne {o : WireOrder} {bytes : List Byte} {t : Byte × Byte × Byte}
    (h : t ≠ crcBytes o (crc24q bytes)) : validate o bytes t = false := decide_eq_false h.symm

/-- A flipped bit makes another byte. -/
theorem xor_bit_ne (x : Byte) {k : Nat} (hk : k < 8) : x ^^^ ((1 : Byte) <<< k) ≠ x := by
  intro h
  have hbit := congrArg (fun y => y.getLsbD k) h
  simp [hk] at hbit

end Sys2Proof.Machine

namespace Sys2Proof.Proofs

open Sys2Proof.Machine

/-- Settles O35: `crcShift` is R100's pass, cut to 24 bits; G's bits above 24 are 0. -/
theorem crcStepIsShiftAndReduce : Obligations.CrcStepIsShiftAndReduce := by
  refine ⟨fun c b => ?_, fun k => ?_⟩
  · rw [crcStep, crcShifts_eq_iterate, funext crcShift_eq]
    rfl
  · rcases Nat.lt_or_ge k 25 with hlt | hge
    · revert k
      decide
    · have hlist : ∀ j ∈ [24, 23, 18, 17, 14, 11, 10, 7, 6, 5, 4, 3, 1, 0], j < 25 := by decide
      rw [BitVec.getLsbD_of_ge _ _ hge]
      exact iff_of_false Bool.false_ne_true fun hk => absurd (hlist k hk) (by omega)

/-- Settles O37: the general form by linearity, the listed entries by running the step. -/
theorem tableFormIsEquivalent : Obligations.TableFormIsEquivalent := ⟨crcStep_eq_table, by decide +kernel⟩

/-- Settles O38: either order compares the CRC with one 24-bit value made of the three bytes. -/
theorem validateComparesAllThreeBytes : Obligations.ValidateComparesAllThreeBytes := by
  refine fun bytes t0 t1 t2 => ⟨fun _ => ⟨rfl, rfl⟩, ?_, ?_, fun o => (validate_iff o bytes bytes).mpr rfl⟩
  · rw [validate, crcMatches_msbFirst, decide_eq_true_iff]
  · rw [validate, crcMatches_lsbFirst, decide_eq_true_iff]

/-- Settles O39: the buffer `[0x01]`, whose CRC is 0x864CFB, is the one with a residue under LSB_FIRST. -/
theorem residueIsZero : Obligations.ResidueIsZero :=
  ⟨fun _ => (crc24q_append _ _).trans (foldl_crcStep_msbFirst _), [0x01], by decide +kernel⟩

/-- Settles O40: a step loses nothing of its byte nor of its accumulator, so the one changed byte still shows at the end. -/
theorem singleBitFlipsAreDetected : Obligations.SingleBitFlipsAreDetected := by
  intro o bytes
  refine ⟨fun n k hn hk => ?_, fun k hk => ?_⟩
  · have hcrc := mt (crc24q_set_eq_iff hn _).mp (xor_bit_ne (byteAt bytes n) hk)
    exact ⟨hcrc, Bool.eq_false_of_not_eq_true (mt (validate_iff o _ _).mp hcrc)⟩
  · have hflip (x : Byte) := xor_bit_ne x hk
    refine ⟨validate_of_ne fun h => ?_, validate_of_ne fun h => ?_, validate_of_ne fun h => ?_⟩
    · exact hflip _ (congrArg Prod.fst h)
    · exact hflip _ (congrArg (fun t => t.2.1) h)
    · exact hflip _ (congrArg (fun t => t.2.2) h)

/-- Settles O41: leading zeros leave the accumulator at 0, and a fold of linear steps is linear. -/
theorem crcIsLinear : Obligations.CrcIsLinear := by
  refine ⟨rfl, crcStep_zero_zero, by decide +kernel, fun n bytes => ?_, fun a b h => foldl_crcStep_xor h 0 0⟩
  rw [crc24q_append, crc24q_replicate_zero]
  rfl

end Sys2Proof.Proofs
end

section
/-! PROOFS. The CRC as a remainder of polynomials over GF(2) (40_crc24q.md R100, R101). -/

namespace Sys2Proof.Machine

open Polynomial

/-! ### Bit vectors as polynomials -/

/-- The polynomial over GF(2) whose coefficients are the bits of `x`. -/
noncomputable def bitPoly {w : Nat} (x : BitVec w) : (ZMod 2)[X] :=
  ∑ k ∈ Finset.range w, if x.getLsbD k then X ^ k else 0

theorem bitPoly_coeff {w : Nat} (x : BitVec w) (n : Nat) : (bitPoly x).coeff n = if x.getLsbD n then 1 else 0 := by
  have hterm (k : Nat) :
      (if x.getLsbD k then (X ^ k : (ZMod 2)[X]) else 0).coeff n = if n = k then if x.getLsbD n then 1 else 0 else 0 := by
    rw [apply_ite (coeff · n), coeff_X_pow, coeff_zero]
    split_ifs with hk <;> simp_all
  rw [bitPoly, finsetSum_coeff, Finset.sum_congr rfl fun k _ => hterm k, Finset.sum_ite_eq]
  by_cases hn : n < w
  · rw [if_pos (Finset.mem_range.mpr hn)]
  · rw [if_neg (mt Finset.mem_range.mp hn), BitVec.getLsbD_of_ge x n (Nat.le_of_not_lt hn), if_neg Bool.false_ne_true]

theorem bitPoly_zero (w : Nat) : bitPoly (0 : BitVec w) = 0 := by
  ext n
  simp [bitPoly_coeff]

theorem bitPoly_degree_lt {w : Nat} (x : BitVec w) : (bitPoly x).degree < w := by
  rw [degree_lt_iff_coeff_zero]
  intro n hn
  rw [bitPoly_coeff, BitVec.getLsbD_of_ge x n hn, if_neg Bool.false_ne_true]

/-- Addition over GF(2) is exclusive or. -/
theorem bitPoly_xor {w : Nat} (x y : BitVec w) : bitPoly (x ^^^ y) = bitPoly x + bitPoly y := by
  ext n
  rw [coeff_add, bitPoly_coeff, bitPoly_coeff, bitPoly_coeff, BitVec.getLsbD_xor]
  cases x.getLsbD n <;> cases y.getLsbD n <;> decide

/-- Zero bits on top do not count. -/
theorem bitPoly_setWidth {w v : Nat} (h : w ≤ v) (x : BitVec w) : bitPoly (x.setWidth v) = bitPoly x := by
  ext n
  have hbit : (x.setWidth v).getLsbD n = x.getLsbD n := by
    rw [BitVec.getLsbD_setWidth]
    by_cases hn : n < v
    · rw [decide_eq_true hn, Bool.true_and]
    · rw [decide_eq_false hn, Bool.false_and, BitVec.getLsbD_of_ge x n (by omega)]
  rw [bitPoly_coeff, bitPoly_coeff, hbit]

/-- A shift that loses no bit multiplies by a power of x. -/
theorem bitPoly_shiftLeft {w v m : Nat} (h : w + m ≤ v) (x : BitVec w) :
    bitPoly (x.setWidth v <<< m) = X ^ m * bitPoly x := by
  ext n
  rw [coeff_X_pow_mul', bitPoly_coeff, bitPoly_coeff, BitVec.getLsbD_shiftLeft, BitVec.getLsbD_setWidth]
  by_cases hm : m ≤ n
  · by_cases hx : x.getLsbD (n - m) = true
    · have := BitVec.lt_of_getLsbD hx
      simp [hm, hx, show n < v by omega, show n - m < v by omega]
    · simp [hm, hx]
  · simp [hm, show n < m by omega]

/-! ### A step modulo G(x) (R100) -/

/-- G(x) of R100, whose coefficients are the bits of CRC_POLY. -/
noncomputable def crcGenerator : (ZMod 2)[X] := bitPoly crcPoly

theorem crcGenerator_eq : crcGenerator =
    X ^ 24 + X ^ 23 + X ^ 18 + X ^ 17 + X ^ 14 + X ^ 11 + X ^ 10 + X ^ 7 + X ^ 6 + X ^ 5 + X ^ 4 + X ^ 3 + X + 1 := by
  have hbits : (Finset.range 25).filter (fun k => crcPoly.getLsbD k) =
      {24, 23, 18, 17, 14, 11, 10, 7, 6, 5, 4, 3, 1, 0} := by decide
  rw [crcGenerator, bitPoly, ← Finset.sum_filter, hbits]
  simp [add_assoc]

theorem crcGenerator_monic_degree : crcGenerator.Monic ∧ crcGenerator.degree = 24 := by
  rw [crcGenerator_eq]
  exact ⟨by monicity!, by compute_degree!⟩

/-- The residue class modulo G(x) of a CRC value. -/
noncomputable def crcClass (c : Crc) : AdjoinRoot crcGenerator := AdjoinRoot.mk crcGenerator (bitPoly c)

theorem crcClass_crcShift (r : Crc) : crcClass (crcShift r) = AdjoinRoot.root crcGenerator * crcClass r := by
  have hpoly : bitPoly (crcShift r) = X ^ 1 * bitPoly r + (if r.getLsbD 23 then crcGenerator else 0) := by
    rw [← bitPoly_setWidth (show 24 ≤ 25 by decide), setWidth_crcShift, bitPoly_xor, bitPoly_shiftLeft (by decide),
      apply_ite bitPoly, bitPoly_zero, crcGenerator]
  have hreduce : AdjoinRoot.mk crcGenerator (if r.getLsbD 23 then crcGenerator else 0) = 0 := by
    rw [apply_ite (AdjoinRoot.mk crcGenerator), AdjoinRoot.mk_self, map_zero, ite_self]
  rw [crcClass, hpoly, map_add, hreduce, add_zero, map_mul, pow_one, AdjoinRoot.mk_X, crcClass]

theorem crcClass_crcShifts (n : Nat) (r : Crc) :
    crcClass (crcShifts n r) = AdjoinRoot.root crcGenerator ^ n * crcClass r := by
  induction n generalizing r with
  | zero => rw [pow_zero, one_mul, crcShifts]
  | succ n ih => rw [crcShifts, ih, crcClass_crcShift, pow_succ, mul_assoc]

/-- Modulo G(x) a step multiplies the accumulator by x^8 and adds the byte times x^24. -/
theorem crcClass_crcStep (c : Crc) (b : Byte) :
    crcClass (crcStep c b) =
      AdjoinRoot.root crcGenerator ^ 8 * crcClass c + AdjoinRoot.mk crcGenerator (bitPoly b * X ^ 24) := by
  rw [crcStep, crcClass_crcShifts, crcClass, bitPoly_xor, bitPoly_shiftLeft (by decide), crcClass]
  simp only [map_add, map_mul, map_pow, AdjoinRoot.mk_X]
  ring

/-! ### The buffer as a polynomial (R101) -/

/-- B(x): the bits of the buffer, MSB first, as coefficients. -/
noncomputable def bufferPoly (bytes : List Byte) : (ZMod 2)[X] :=
  ∑ k ∈ Finset.range (8 * bytes.length), if streamBit bytes k then X ^ (8 * bytes.length - 1 - k) else 0

theorem streamBit_append {bytes : List Byte} {k : Nat} (h : k < 8 * bytes.length) (r : List Byte) :
    streamBit (bytes ++ r) k = streamBit bytes k := by
  rw [streamBit, byteAt_append (by omega), streamBit]

theorem streamBit_append_singleton (bytes : List Byte) (b : Byte) {j : Nat} (h : j < 8) :
    streamBit (bytes ++ [b]) (8 * bytes.length + j) = b.getLsbD (8 - 1 - j) := by
  rw [streamBit, show (8 * bytes.length + j) / 8 = bytes.length + 0 by omega, byteAt_append_right,
    show (8 * bytes.length + j) % 8 = j by omega]
  rfl

theorem bufferPoly_append_singleton (bytes : List Byte) (b : Byte) :
    bufferPoly (bytes ++ [b]) = bufferPoly bytes * X ^ 8 + bitPoly b := by
  rw [bufferPoly, List.length_append, List.length_singleton, Nat.mul_add, Finset.sum_range_add]
  congr 1
  · rw [bufferPoly, Finset.sum_mul]
    refine Finset.sum_congr rfl fun k hk => ?_
    have hk := Finset.mem_range.mp hk
    rw [streamBit_append hk, ite_mul, zero_mul, ← pow_add]
    congr 2
    omega
  · refine Eq.trans (Finset.sum_congr rfl fun j hj => ?_) (Finset.sum_range_reflect _ 8)
    have hj := Finset.mem_range.mp hj
    rw [streamBit_append_singleton bytes b hj]
    congr 2
    omega

/-- Modulo G(x) the CRC is `B(x) x^24`. -/
theorem crcClass_crc24q (bytes : List Byte) :
    crcClass (crc24q bytes) = AdjoinRoot.mk crcGenerator (bufferPoly bytes * X ^ 24) := by
  induction bytes using List.reverseRecOn with
  | nil =>
    have hempty : bufferPoly [] = 0 := Finset.sum_range_zero _
    rw [crc24q_nil, crcClass, bitPoly_zero, hempty, zero_mul]
  | append_singleton bytes b ih =>
    rw [crc24q_append_singleton, crcClass_crcStep, ih, bufferPoly_append_singleton]
    simp only [map_add, map_mul, map_pow, AdjoinRoot.mk_X]
    ring

/-- A residue class modulo G(x) holds one polynomial of a degree below 24, its remainder. -/
theorem bitPoly_crc24q (bytes : List Byte) : bitPoly (crc24q bytes) = (bufferPoly bytes * X ^ 24) %ₘ crcGenerator := by
  obtain ⟨hmonic, hdegree⟩ := crcGenerator_monic_degree
  rw [← modByMonic_eq_of_dvd_sub hmonic (AdjoinRoot.mk_eq_mk.mp (crcClass_crc24q bytes)), eq_comm,
    modByMonic_eq_self_iff hmonic, hdegree]
  exact bitPoly_degree_lt _

end Sys2Proof.Machine

namespace Sys2Proof.Proofs

open Sys2Proof.Machine

/-- Settles O36: the CRC and `B(x) x^24` lie in one residue class modulo G(x), and the CRC's degree is below 24. -/
theorem crcIsPolynomialRemainder : Obligations.CrcIsPolynomialRemainder := by
  intro bytes
  refine ⟨rfl, ?_⟩
  rw [← crcGenerator_eq]
  exact bitPoly_crc24q bytes

end Sys2Proof.Proofs
end

section
/-! PROOFS. The CRC commands: their words and what they do to the accumulator and CRC_MATCH (40_crc24q.md R105 to R107). -/

namespace Sys2Proof

open Sys2Proof.Machine

/-! ### Command words as sums of their fields in place (R80) -/

theorem or_toNat_of_disjoint {x y : Word} {n : Nat} (hx : x.toNat % 2 ^ n = 0) (hy : y.toNat < 2 ^ n) :
    (x ||| y).toNat = x.toNat + y.toNat := by
  rw [BitVec.toNat_or, ← Nat.div_add_mod x.toNat (2 ^ n), hx, Nat.add_zero, ← Nat.two_pow_add_eq_or_of_lt hy]

theorem encodeFormB_eq_or (op : BitVec 4) (b : Byte) : encodeFormB op b = encodeFormB op 0 ||| b.setWidth 32 := by
  have hop : (encodeFormB op 0).toNat = op.toNat * 2 ^ 28 := by simp [encodeFormB_toNat]
  have hb : (b.setWidth 32).toNat = b.toNat := BitVec.toNat_setWidth_of_le (by decide)
  apply BitVec.eq_of_toNat_eq
  rw [or_toNat_of_disjoint (n := 8) (by omega) (by omega), encodeFormB_toNat, hop, hb]

theorem encodeFormT_zero_toNat (op : BitVec 4) : (encodeFormT op 0 0 0).toNat = op.toNat * 2 ^ 28 := by
  simp [encodeFormT_toNat]

theorem byte_shiftLeft_toNat (x : Byte) {n : Nat} (hn : n ≤ 24) :
    ((x.setWidth 32 : Word) <<< n).toNat = x.toNat * 2 ^ n := by
  have hlt : x.toNat * 2 ^ n < 2 ^ 32 :=
    calc x.toNat * 2 ^ n ≤ x.toNat * 2 ^ 24 := Nat.mul_le_mul_left _ (Nat.pow_le_pow_right (by decide) hn)
      _ < 2 ^ 32 := by omega
  rw [BitVec.toNat_shiftLeft, BitVec.toNat_setWidth_of_le (by decide), Nat.shiftLeft_eq, Nat.mod_eq_of_lt hlt]

/-- The fields of form T do not overlap: each one is added below the sum of those above it. -/
theorem encodeFormT_eq_or (op : BitVec 4) (t0 t1 t2 : Byte) :
    encodeFormT op t0 t1 t2 =
      encodeFormT op 0 0 0 ||| (t0.setWidth 32 <<< 16) ||| (t1.setWidth 32 <<< 8) ||| t2.setWidth 32 := by
  have hop := encodeFormT_zero_toNat op
  have h0 := byte_shiftLeft_toNat t0 (show 16 ≤ 24 by decide)
  have h1 := byte_shiftLeft_toNat t1 (show 8 ≤ 24 by decide)
  have h2 : (t2.setWidth 32).toNat = t2.toNat := BitVec.toNat_setWidth_of_le (by decide)
  have hsum0 : (encodeFormT op 0 0 0 ||| (t0.setWidth 32 <<< 16)).toNat = op.toNat * 2 ^ 28 + t0.toNat * 2 ^ 16 := by
    rw [or_toNat_of_disjoint (n := 24) (by omega) (by omega), hop, h0]
  have hsum1 : (encodeFormT op 0 0 0 ||| (t0.setWidth 32 <<< 16) ||| (t1.setWidth 32 <<< 8)).toNat =
      op.toNat * 2 ^ 28 + t0.toNat * 2 ^ 16 + t1.toNat * 2 ^ 8 := by
    rw [or_toNat_of_disjoint (n := 16) (by omega) (by omega), hsum0, h1]
  apply BitVec.eq_of_toNat_eq
  rw [or_toNat_of_disjoint (n := 8) (by omega) (by omega), encodeFormT_toNat, hsum1, h2]

/-- A CRC as the operand field of CRC_CHECK is its three bytes, the top one as T0 (R107). -/
theorem encode_crcCheck_crc (c : Crc) :
    encode (.crcCheck (c.extractLsb' 16 8) (c.extractLsb' 8 8) (c.extractLsb' 0 8)) = 0x60000000 ||| c.setWidth 32 := by
  have hc : (c.setWidth 32).toNat = c.toNat := BitVec.toNat_setWidth_of_le (by decide)
  apply BitVec.eq_of_toNat_eq
  rw [or_toNat_of_disjoint (n := 24) rfl (by omega), encode, encodeFormT_toNat, hc,
    show (6 : BitVec 4).toNat = 6 from rfl, show (0x60000000 : Word).toNat = 6 * 2 ^ 28 from rfl]
  simp only [BitVec.extractLsb'_toNat, Nat.shiftRight_eq_div_pow]
  omega

theorem decode_eq_command_iff_eq_encode {w : Word} {i : Instr} : decode w = .command i ↔ w = encode i :=
  decode_eq_command_iff.trans eq_comm

end Sys2Proof

namespace Sys2Proof.Machine

/-- A run of CRC_UPDATEs folds the step over their bytes and changes nothing else. -/
theorem execAll_crcUpdates (bytes : List Byte) (s : State) :
    execAll (bytes.map .crcUpdate) s =
      .next (s.withBlock { s.block with crcAcc := bytes.foldl crcStep s.block.crcAcc }) := by
  induction bytes generalizing s with
  | nil => rfl
  | cons b bytes ih =>
    rw [List.map_cons, execAll_cons (exec_eq (.crcUpdate b) s), ih]
    rfl

end Sys2Proof.Machine

namespace Sys2Proof.Proofs

open Sys2Proof.Machine

/-- Settles O29: its word is the only encoding, and its meaning writes `crcAcc` alone. -/
theorem crcInitClearsTheAccumulator : Obligations.CrcInitClearsTheAccumulator := fun _ =>
  ⟨fun _ => decode_eq_command_iff_eq_encode, rfl⟩

/-- Settles O30: the commands fold the step from the initial value, as `crc24q` does. -/
theorem crcUpdateFeedsTheAccumulator : Obligations.CrcUpdateFeedsTheAccumulator := by
  refine ⟨fun s b => ⟨fun w => ?_, exec_eq _ s⟩, fun s bytes => ?_⟩
  · rw [decode_eq_command_iff_eq_encode, encode, encodeFormB_eq_or]
    rfl
  · rw [execAll_cons (exec_eq .crcInit s), execAll_crcUpdates]
    rfl

/-- Settles O31: the comparison by position is one with a 24-bit value, which the accumulator's own operand word carries. -/
theorem crcCheckComparesPositions : Obligations.CrcCheckComparesPositions := by
  intro s t0 t1 t2
  refine ⟨fun w => ?_, fun ho => ⟨?_, ?_⟩, fun ho => ?_⟩
  · rw [decode_eq_command_iff_eq_encode, encode, encodeFormT_eq_or]
    rfl
  · rw [exec_eq, Block.after, ho, crcMatches_msbFirst]
    rfl
  · have hdecode := decode_eq_command_iff_eq_encode.mpr (encode_crcCheck_crc s.block.crcAcc).symm
    rw [performWord_command hdecode, exec_eq, Block.after, ho, crcMatches_msbFirst, crcBytes_join, decide_eq_true rfl]
    rfl
  · rw [exec_eq, Block.after, ho, crcMatches_lsbFirst]
    rfl

end Sys2Proof.Proofs
end

section
/-! PROOFS. PUSH, POP and FLUSH, and one SCAN by what it makes of its first candidate (41_frame_scanner.md R120 to R133). -/

namespace Sys2Proof.Machine

/-! ### A scan that starts after some mismatches (R127) -/

/-- The result with `n` more mismatches, counted before the scan that gave it. -/
def ScanResult.afterMismatches (r : ScanResult) (n : Nat) : ScanResult := { r with mismatches := r.mismatches + n }

theorem ScanResult.afterMismatch_eq (r : ScanResult) : r.afterMismatch = r.afterMismatches 1 := rfl

@[simp] theorem ScanResult.afterMismatches_zero (r : ScanResult) : r.afterMismatches 0 = r := rfl

@[simp] theorem ScanResult.afterMismatches_afterMismatches (r : ScanResult) (m n : Nat) :
    (r.afterMismatches m).afterMismatches n = r.afterMismatches (m + n) := by
  simp only [ScanResult.afterMismatches, Nat.add_assoc]

theorem ScanResult.afterMismatches_afterMismatch (r : ScanResult) (n : Nat) :
    r.afterMismatch.afterMismatches n = r.afterMismatches (n + 1) := by
  rw [ScanResult.afterMismatch_eq, ScanResult.afterMismatches_afterMismatches, Nat.add_comm]

/-- Mismatches found before a scan add to the counter what they would have added by themselves (R127). -/
theorem Block.applyScan_afterMismatches (b : Block) (r : ScanResult) (n : Nat) :
    b.applyScan (r.afterMismatches n) = (b.countMismatches n).applyScan r := by
  have hcount : b.countMismatches (r.mismatches + n) = (b.countMismatches n).countMismatches r.mismatches := by
    rw [Block.countMismatches_add, Nat.add_comm]
  cases hout : r.outcome <;> simp only [Block.applyScan, ScanResult.afterMismatches, hout, hcount]

/-! ### The scan of a candidate at the head (R123 to R129) -/

/-- Without a held frame a SCAN is its loop's result applied (R121). -/
theorem Block.scan_of_not_ready (o : WireOrder) {b : Block} (h : b.ready = false) :
    b.scan o = b.applyScan (scanBytes o b.q) := by
  rw [Block.scan, h, if_neg Bool.false_ne_true]

/-- A scan's result overwrites the buffer, NEED_MORE and STAGE, whatever they were. -/
theorem Block.applyScan_overwrites (b : Block) (q : List Byte) (needMore : Bool) (stage : Stage) (r : ScanResult) :
    ({ b with q := q, needMore := needMore, stage := stage } : Block).applyScan r = b.applyScan r := by
  unfold Block.applyScan
  cases r.outcome <;> rfl

variable {o : WireOrder} {q : List Byte}

theorem examine_readLength (h : q.length < 3) : examine o q = .needMore .readLength := if_pos h

theorem examine_readPayload (h3 : 3 ≤ q.length) (h : q.length < 3 + frameLen q) :
    examine o q = .needMore .readPayload := by
  rw [examine, if_neg (by omega), if_pos h]

theorem examine_readCrc (h3 : 3 + frameLen q ≤ q.length) (h : q.length < 6 + frameLen q) :
    examine o q = .needMore .readCrc := by
  rw [examine, if_neg (by omega), if_neg (by omega), if_pos h]

theorem examine_heldFrame (h : HeldFrame o q) : examine o q = .frameReady := by
  rw [examine_whole h.whole, h.valid, if_pos rfl]

/-- A candidate that runs short stays whole at the head, and the block waits at its stage (R129). -/
theorem Block.scan_short {b : Block} {k : Stage} (hready : b.ready = false) (hhead : b.q.head? = some preamble)
    (h : examine o b.q = .needMore k) : b.scan o = { b with needMore := true, stage := k } := by
  obtain ⟨rest, hq⟩ := List.head?_eq_some_iff.mp hhead
  have hscan : scanBytes o b.q = ⟨b.q, .needMore k, 0⟩ := by
    rw [hq] at h ⊢
    exact scanBytes_needMore h
  rw [Block.scan_of_not_ready o hready, hscan, Block.applyScan, Block.countMismatches_zero]
  rfl

/-- After a mismatch the scan goes on behind the failed preamble (R127). -/
theorem Block.scan_mismatch {b : Block} (hready : b.ready = false) (hhead : b.q.head? = some preamble)
    (h : examine o b.q = .mismatch) :
    b.scan o = ({ b with q := b.q.drop 1, crcErrCnt := b.crcErrCnt + 1 } : Block).scan o := by
  obtain ⟨rest, hq⟩ := List.head?_eq_some_iff.mp hhead
  have hscan : scanBytes o b.q = (scanBytes o (b.q.drop 1)).afterMismatches 1 := by
    rw [hq] at h ⊢
    exact scanBytes_mismatch h
  rw [Block.scan_of_not_ready o hready, hscan, Block.applyScan_afterMismatches,
    ← (b.countMismatches 1).applyScan_overwrites (b.q.drop 1) b.needMore b.stage]
  exact (Block.scan_of_not_ready o (b := { b with q := b.q.drop 1, crcErrCnt := b.crcErrCnt + 1 }) hready).symm

/-! ### The scan as the transition table of R130 -/

/-- SEEK_PREAMBLE on another byte drops it. -/
theorem runTable_skip {x : Byte} (hx : x ≠ preamble) (rest : List Byte) (l m n : Nat) :
    runTable o (n + 1) ⟨.seekPreamble, x :: rest, l, m⟩ = runTable o n ⟨.seekPreamble, rest, l, m⟩ := by
  simp [runTable, scanTransition, hx]

/-- A candidate that runs short exits at its stage, after at most 4 transitions. -/
theorem runTable_needMore {rest : List Byte} {k : Stage} (h : examine o (preamble :: rest) = .needMore k)
    (l m n : Nat) :
    runTable o (n + 4) ⟨.seekPreamble, preamble :: rest, l, m⟩ =
      some (.result ⟨preamble :: rest, .needMore k, m⟩) := by
  rcases examine_cases o (preamble :: rest) with ⟨e, h1⟩ | ⟨e, h1, h2⟩ | ⟨e, h1, h2⟩ | ⟨e, -⟩ | ⟨e, -⟩
  · obtain rfl := Verdict.needMore.inj (h.symm.trans e)
    simp only [runTable, scanTransition, if_true, if_pos h1]
  · obtain rfl := Verdict.needMore.inj (h.symm.trans e)
    have hlen : ¬ (preamble :: rest).length < 3 := by omega
    simp only [runTable, scanTransition, if_true, if_neg hlen, if_pos h2]
  · obtain rfl := Verdict.needMore.inj (h.symm.trans e)
    have hlen : ¬ (preamble :: rest).length < 3 := by omega
    have hpayload : ¬ (preamble :: rest).length < 3 + frameLen (preamble :: rest) := by omega
    simp only [runTable, scanTransition, if_true, if_neg hlen, if_neg hpayload, if_pos h2]
  · simp [e] at h
  · simp [e] at h

/-- A whole candidate reaches VALIDATE after four transitions, with its length latched. -/
theorem runTable_whole {rest : List Byte} (h : 6 + frameLen (preamble :: rest) ≤ (preamble :: rest).length)
    (l m n : Nat) :
    runTable o (n + 4) ⟨.seekPreamble, preamble :: rest, l, m⟩ =
      runTable o n ⟨.validate, preamble :: rest, frameLen (preamble :: rest), m⟩ := by
  have hlen : ¬ (preamble :: rest).length < 3 := by omega
  have hpayload : ¬ (preamble :: rest).length < 3 + frameLen (preamble :: rest) := by omega
  have hcrc : ¬ (preamble :: rest).length < 6 + frameLen (preamble :: rest) := by omega
  simp only [runTable, scanTransition, if_true, if_neg hlen, if_neg hpayload, if_neg hcrc]

/-- VALIDATE and the row behind it: DISPATCH exits with the frame, RESYNC drops the preamble and seeks again. -/
theorem runTable_validate (x : Byte) (rest : List Byte) (m n : Nat) :
    runTable o (n + 2) ⟨.validate, x :: rest, frameLen (x :: rest), m⟩ =
      if frameValid o (x :: rest) then some (.result ⟨x :: rest, .frameReady, m⟩)
      else runTable o n ⟨.seekPreamble, rest, frameLen (x :: rest), m + 1⟩ := by
  have hvalid : validate o ((x :: rest).take (3 + frameLen (x :: rest)))
      (byteAt (x :: rest) (3 + frameLen (x :: rest)), byteAt (x :: rest) (4 + frameLen (x :: rest)),
        byteAt (x :: rest) (5 + frameLen (x :: rest))) = frameValid o (x :: rest) := rfl
  simp only [runTable, scanTransition, hvalid]
  cases frameValid o (x :: rest) <;> rfl

/-- From SEEK_PREAMBLE the table exits with the scan's result, after at most six transitions for each byte and one more. -/
theorem runTable_seekPreamble (o : WireOrder) (q : List Byte) (l m n : Nat) :
    runTable o (n + 6 * q.length + 1) ⟨.seekPreamble, q, l, m⟩ =
      some (.result ((scanBytes o q).afterMismatches m)) := by
  induction q generalizing l m n with
  | nil => simp [runTable, scanTransition, ScanResult.afterMismatches]
  | cons x rest ih =>
    by_cases hx : x = preamble
    · subst hx
      have hfuel : n + 6 * (preamble :: rest).length + 1 = (n + 6 * rest.length + 1) + 2 + 4 := by
        rw [List.length_cons]
        omega
      rcases examine_cases o (preamble :: rest) with ⟨h, -⟩ | ⟨h, -, -⟩ | ⟨h, -, -⟩ | ⟨h, hw, hv⟩ | ⟨h, hw, hv⟩
      iterate 3
        rw [hfuel, runTable_needMore h, scanBytes_needMore h, ScanResult.afterMismatches, Nat.zero_add]
      · rw [hfuel, runTable_whole hw, runTable_validate, hv, if_pos rfl, scanBytes_frameReady h,
          ScanResult.afterMismatches, Nat.zero_add]
      · rw [hfuel, runTable_whole hw, runTable_validate, hv, if_neg Bool.false_ne_true, ih, scanBytes_mismatch h,
          ScanResult.afterMismatches_afterMismatch]
    · have hfuel : n + 6 * (x :: rest).length + 1 = (n + 5 + 6 * rest.length + 1) + 1 := by
        rw [List.length_cons]
        omega
      rw [hfuel, runTable_skip hx, ih, scanBytes_skip o hx]

/-- A SCAN's run through the table, the entry row first. -/
theorem runTable_start (o : WireOrder) (b : Block) :
    runTable o (6 * b.q.length + 7) (ScanWork.start b) =
      some (if b.ready then .noOp else .result (scanBytes o b.q)) := by
  cases hready : b.ready with
  | true => simp [runTable, scanTransition, ScanWork.start, hready]
  | false =>
    have hentry : runTable o (6 * b.q.length + 7) (ScanWork.start b) =
        runTable o (5 + 6 * b.q.length + 1) ⟨.seekPreamble, b.q, 0, 0⟩ := by
      rw [show 6 * b.q.length + 7 = (5 + 6 * b.q.length + 1) + 1 by omega, runTable]
      simp only [scanTransition, ScanWork.start, hready]
    rw [hentry, runTable_seekPreamble, ScanResult.afterMismatches_zero]
    rfl

end Sys2Proof.Machine

namespace Sys2Proof.Proofs

open Sys2Proof.Machine

/-- Settles O20: its words are the encodings, and its two cases are those of the shared operation. -/
theorem pushAppendsOrOverflows : Obligations.PushAppendsOrOverflows := by
  intro s b
  refine ⟨fun w => ?_, fun hfull => ?_, fun hroom => ?_⟩
  · rw [decode_eq_command_iff_eq_encode, encode, encodeFormB_eq_or]
    rfl
  · rw [exec_eq, Block.after, Block.pushByte, if_pos hfull]
    rfl
  · rw [exec_eq, Block.after, Block.pushByte, if_neg hroom]
    rfl

/-- Settles O27, by whether a frame is held. -/
theorem popReleasesTheFrame : Obligations.PopReleasesTheFrame := by
  intro s
  refine ⟨fun w => decode_eq_command_iff_eq_encode, fun hready => ?_, fun hready => ?_⟩
  · rw [exec_eq, Block.after, Block.popFrame, hready, if_neg Bool.false_ne_true]
    rfl
  · rw [exec_eq, Block.after, Block.popFrame, hready, if_pos rfl, frameBytes_eq]
    rfl

/-- Settles O28: its word is the only encoding, and its meaning writes the buffer and the scan flags alone. -/
theorem flushDiscardsInput : Obligations.FlushDiscardsInput := fun _ =>
  ⟨fun _ => decode_eq_command_iff_eq_encode, rfl⟩

/-- Settles O21: the table's run exits with the scan's own result, whose buffer is a tail of the old one. -/
theorem scanFollowsTransitionTable : Obligations.ScanFollowsTransitionTable := by
  intro s
  refine ⟨⟨_, runTable_start s.params.wireOrder s.block, ?_, fun r hr => ?_⟩, fun hready => ?_⟩
  · rw [exec_eq, Block.after, Block.scan]
    cases s.block.ready <;> rfl
  · cases hready : s.block.ready with
    | true => simp [hready] at hr
    | false =>
      obtain rfl : scanBytes s.params.wireOrder s.block.q = r := by simpa [hready] using hr
      obtain ⟨⟨k, -, hk, hq⟩, -⟩ := scanBytes_spec s.params.wireOrder s.block.q
      exact ⟨k, hk, hq⟩
  · rw [exec_eq, Block.after, Block.scan_of_ready _ hready]
    rfl

/-- Settles O22: the loop skips the garbage, and what is left is empty or a candidate that stays at the head. -/
theorem seekDropsToThePreamble : Obligations.SeekDropsToThePreamble := by
  intro s garbage rest hready hq hgarbage
  have hskip : exec .scan s = .next (s.withBlock (s.block.applyScan (scanBytes s.params.wireOrder rest))) := by
    rw [exec_eq, Block.after, Block.scan_of_not_ready _ hready, hq, scanBytes_skipAll _ hgarbage]
  refine ⟨?_, ?_, fun hhead hmismatch => ⟨_, hskip, ?_⟩⟩
  · rw [hskip, ← s.block.applyScan_overwrites rest s.block.needMore s.block.stage, exec_eq, Block.after,
      Block.scan_of_not_ready _ (b := { s.block with q := rest }) hready]
    rfl
  · rintro rfl
    rw [hskip, scanBytes_nil, Block.applyScan, Block.countMismatches_zero]
    rfl
  · obtain ⟨tail, rfl⟩ := List.head?_eq_some_iff.mp (show rest.head? = some preamble from hhead)
    cases h : examine s.params.wireOrder (preamble :: tail) with
    | needMore k => rw [scanBytes_needMore h]; rfl
    | frameReady => rw [scanBytes_frameReady h]; rfl
    | mismatch => exact absurd h hmismatch

/-- Settles O23, stage by stage. -/
theorem shortCandidateRewinds : Obligations.ShortCandidateRewinds := by
  intro s hready
  have waits {k : Stage} (h : s.block.scan s.params.wireOrder = { s.block with needMore := true, stage := k }) :
      exec .scan s = .next { s with block := { s.block with needMore := true, stage := k } } := by
    rw [exec_eq, Block.after, h]
    rfl
  refine ⟨fun hq => waits ?_, fun hhead => ⟨fun h => ?_, fun h3 h => ?_, fun h3 h => ?_⟩⟩
  · rw [Block.scan_of_not_ready _ hready, hq, scanBytes_nil, Block.applyScan, Block.countMismatches_zero, ← hq]
    rfl
  · exact waits (Block.scan_short hready hhead (examine_readLength h))
  · exact waits (Block.scan_short hready hhead (examine_readPayload h3 h))
  · exact waits (Block.scan_short hready hhead (examine_readCrc h3 h))

/-- Settles O24: VALIDATE is the comparison written out, and RESYNC is what a mismatch does. -/
theorem mismatchDropsOnlyThePreamble : Obligations.MismatchDropsOnlyThePreamble := by
  intro s hready hhead hwhole hcrc
  have hinvalid : ¬ frameValid s.params.wireOrder s.block.q = true := fun h => hcrc ((frameValid_iff _ _).mp h)
  have hexamine : examine s.params.wireOrder s.block.q = .mismatch := by
    rw [examine_whole hwhole, if_neg hinvalid]
  rw [exec_eq, Block.after, Block.scan_mismatch hready hhead hexamine, exec_eq]
  rfl

/-- Settles O25: VALIDATE is the comparison written out, so the candidate is a frame to hold. -/
theorem validCandidateIsHeld : Obligations.ValidCandidateIsHeld := by
  intro s hready hhead hwhole hcrc
  have hheld : HeldFrame s.params.wireOrder s.block.q := ⟨hhead, hwhole, (frameValid_iff _ _).mpr hcrc⟩
  rw [exec_eq, Block.after, Block.scan_heldFrame (garbage := []) hready rfl (by simp) hheld]
  rfl

end Sys2Proof.Proofs
end

section
/-! PROOFS. The scan of a longer buffer is the scan of the shorter one continued (41_frame_scanner.md R135). -/

namespace Sys2Proof.Machine

/-! ### The scan of a buffer that goes on (R135) -/

theorem scanBytes_heldFrame {o : WireOrder} {q : List Byte} (h : HeldFrame o q) : scanBytes o q = ⟨q, .frameReady, 0⟩ := by
  obtain ⟨rest, rfl⟩ := List.head?_eq_some_iff.mp h.head
  exact scanBytes_frameReady (examine_heldFrame h)

/-- Only a candidate whose bytes are all there can fail its CRC (R126). -/
theorem whole_of_mismatch {o : WireOrder} {q : List Byte} (h : examine o q = .mismatch) : 6 + frameLen q ≤ q.length := by
  rcases examine_cases o q with ⟨e, -⟩ | ⟨e, -⟩ | ⟨e, -⟩ | ⟨e, -⟩ | ⟨-, hwhole, -⟩
  iterate 4
    rw [h] at e
    cases e
  exact hwhole

/-- What a scan dropped, a scan of the longer buffer drops too, with the same mismatches; then it goes on from there. -/
theorem scanBytes_append (o : WireOrder) (q r : List Byte) :
    scanBytes o (q ++ r) = (scanBytes o ((scanBytes o q).q ++ r)).afterMismatches (scanBytes o q).mismatches := by
  induction q with
  | nil => rfl
  | cons x rest ih =>
    by_cases hx : x = preamble
    · subst hx
      rcases hex : examine o (preamble :: rest) with k | - | -
      · rw [scanBytes_needMore hex, ScanResult.afterMismatches_zero]
      · rw [scanBytes_frameReady hex, ScanResult.afterMismatches_zero]
      · have hex' : examine o (preamble :: (rest ++ r)) = .mismatch :=
          (examine_append (whole_of_mismatch hex) r).trans hex
        rw [List.cons_append, scanBytes_mismatch hex', ih, scanBytes_mismatch hex, ScanResult.afterMismatch_eq,
          ScanResult.afterMismatches_afterMismatches]
        rfl
    · rw [List.cons_append, scanBytes_skip o hx, ih, scanBytes_skip o hx]

/-- A frame found stays the frame found, whatever is appended. -/
theorem scanBytes_append_of_frameReady {o : WireOrder} {q : List Byte} (h : (scanBytes o q).outcome = .frameReady)
    (r : List Byte) :
    scanBytes o (q ++ r) = ⟨(scanBytes o q).q ++ r, .frameReady, (scanBytes o q).mismatches⟩ := by
  rcases (scanBytes_spec o q).2 with ⟨k, -, hout, -⟩ | ⟨-, hheld⟩
  · simp [hout] at h
  · rw [scanBytes_append, scanBytes_heldFrame (hheld.append r), ScanResult.afterMismatches, Nat.zero_add]

/-! ### Accepted PUSHes and the scan behind them -/

/-- The block after PUSHes of `bytes` that are all accepted (R120). -/
def Block.accept (b : Block) (bytes : List Byte) : Block :=
  { b with q := b.q ++ bytes, needMore := false, stage := .none }

@[simp] theorem Block.accept_q (b : Block) (bytes : List Byte) : (b.accept bytes).q = b.q ++ bytes := rfl
@[simp] theorem Block.accept_ready (b : Block) (bytes : List Byte) : (b.accept bytes).ready = b.ready := rfl
@[simp] theorem Block.accept_errOverflow (b : Block) (bytes : List Byte) :
    (b.accept bytes).errOverflow = b.errOverflow := rfl

@[simp] theorem Block.accept_accept (b : Block) (xs ys : List Byte) : (b.accept xs).accept ys = b.accept (xs ++ ys) := by
  simp only [Block.accept, List.append_assoc]

theorem Block.applyScan_accept (b : Block) (bytes : List Byte) (r : ScanResult) :
    (b.accept bytes).applyScan r = b.applyScan r :=
  b.applyScan_overwrites _ _ _ r

/-- R135 on the block: a SCAN behind accepted PUSHes counts the mismatches of a SCAN before them and goes on from its buffer. -/
theorem Block.accept_scan (o : WireOrder) {b : Block} (h : b.ready = false) (bytes : List Byte) :
    (b.accept bytes).scan o =
      (b.countMismatches (scanBytes o b.q).mismatches).applyScan (scanBytes o ((scanBytes o b.q).q ++ bytes)) := by
  rw [Block.scan_of_not_ready o (b := b.accept bytes) h, Block.accept_q, scanBytes_append, Block.applyScan_afterMismatches]
  exact (b.countMismatches _).applyScan_accept bytes _

/-- A frame held before the PUSHes or found by a SCAN before them is the one held by a SCAN behind them. -/
theorem Block.accept_scan_of_ready {o : WireOrder} {b : Block} (h : (b.scan o).ready = true) (bytes : List Byte) :
    (b.accept bytes).scan o = (b.scan o).accept bytes := by
  rcases b.scan_cases o with ⟨hready, e⟩ | ⟨hready, k, -, -, e⟩ | ⟨hready, hheld, e⟩
  · rw [e, Block.scan_of_ready o (b := b.accept bytes) hready]
  · simp [e, hready] at h
  · rw [e, Block.accept_scan o hready, scanBytes_heldFrame (hheld.append bytes), Block.applyScan,
      Block.countMismatches_zero]
    rfl

/-- A SCAN that found no frame may be left out before further PUSHes. -/
theorem Block.scan_accept_scan {o : WireOrder} {b : Block} (h : (b.scan o).ready = false) (bytes : List Byte) :
    ((b.scan o).accept bytes).scan o = (b.accept bytes).scan o := by
  rcases b.scan_cases o with ⟨hready, e⟩ | ⟨hready, k, -, -, e⟩ | ⟨-, -, e⟩
  · rw [e]
  · rw [Block.accept_scan o hready, Block.scan_of_not_ready o (b := (b.scan o).accept bytes) h,
      Block.applyScan_accept, e]
    exact (b.countMismatches _).applyScan_overwrites _ _ _ _
  · simp [e] at h

/-- Without a held frame, NEED_MORE and STAGE do not bear on a SCAN. -/
theorem Block.accept_nil_scan (o : WireOrder) {b : Block} (h : b.ready = false) : (b.accept []).scan o = b.scan o := by
  rw [Block.scan_of_not_ready o (b := b.accept []) h, Block.scan_of_not_ready o h, Block.accept_q, List.append_nil,
    Block.applyScan_accept]

end Sys2Proof.Machine

namespace Sys2Proof.Proofs

open Sys2Proof.Machine

/-- Settles O53: after a need-more the scan goes on from its buffer, and a held frame stays one. -/
theorem partialInputIdempotence : Obligations.PartialInputIdempotence := by
  refine fun o q q2 => ⟨fun k _ => ?_, fun hready => ?_⟩
  · rw [scanBytes_append]
    exact ⟨rfl, rfl, Nat.add_comm _ _⟩
  · rw [scanBytes_append_of_frameReady hready]
    exact ⟨rfl, rfl, rfl⟩

end Sys2Proof.Proofs
end

section
/-! PROOFS. The host's drain of a stream that arrives in batches (41_frame_scanner.md R135, R136). -/

namespace Sys2Proof.Machine

/-! ### The frame that is read and released -/

/-- R23 of a block: what FRAME_READY says is so. -/
def Block.ReadySound (o : WireOrder) (b : Block) : Prop := b.ready = true → HeldFrame o b.q

theorem Block.ReadySound.of_not_ready {o : WireOrder} {b : Block} (h : b.ready = false) : b.ReadySound o :=
  fun hready => absurd (h.symm.trans hready) Bool.false_ne_true

theorem Block.popFrame_readySound (o : WireOrder) (b : Block) : b.popFrame.ReadySound o := .of_not_ready b.popFrame_ready

theorem Block.ReadySound.accept {o : WireOrder} {b : Block} (h : b.ReadySound o) (bytes : List Byte) :
    (b.accept bytes).ReadySound o := fun hready => (h hready).append bytes

theorem Block.ReadySound.scan {o : WireOrder} {b : Block} (h : b.ReadySound o) : (b.scan o).ReadySound o := by
  rcases b.scan_cases o with ⟨-, e⟩ | ⟨hready, k, -, -, e⟩ | ⟨-, hheld, e⟩ <;> rw [e]
  · exact h
  · exact .of_not_ready hready
  · exact fun _ => hheld

theorem Block.popFrame_of_ready {b : Block} (h : b.ready = true) :
    b.popFrame = { b with q := b.q.drop (frameBytes b.q), ready := false } := if_pos h

/-- The held frame and the bytes that POP leaves do not depend on what is pushed behind them. -/
theorem Block.accept_heldFrame {o : WireOrder} {b : Block} (h : HeldFrame o b.q) (hready : b.ready = true)
    (bytes : List Byte) :
    (b.accept bytes).heldFrame = b.heldFrame ∧ (b.accept bytes).popFrame = b.popFrame.accept bytes := by
  have hwhole := h.whole
  have hlen : frameBytes (b.q ++ bytes) = frameBytes b.q := by
    rw [frameBytes_eq, frameBytes_eq, frameLen_append (by omega)]
  have hfits : frameBytes b.q ≤ b.q.length := by rwa [frameBytes_eq]
  constructor
  · rw [Block.heldFrame, Block.accept_q, hlen, List.take_append_of_le_length hfits, Block.heldFrame]
  · rw [Block.popFrame_of_ready hready, Block.popFrame_of_ready (b := b.accept bytes) hready, Block.accept_q, hlen,
      List.drop_append_of_le_length hfits]
    rfl

/-- SCAN and POP of a held frame shorten the buffer. -/
theorem Block.scan_popFrame_length {o : WireOrder} {b : Block} (hs : b.ReadySound o) (h : (b.scan o).ready = true) :
    (b.scan o).popFrame.q.length < b.q.length := by
  obtain ⟨k, -, hq⟩ := b.scan_drop o
  have hwhole := (hs.scan h).whole
  have hscan : (b.scan o).q.length ≤ b.q.length := by
    rw [hq, List.length_drop]
    omega
  rw [Block.popFrame_of_ready h, List.length_drop, frameBytes_eq]
  omega

/-! ### The drain (R135, R233) -/

/-- A host that reads `frames` and then what `d` says. -/
def deliverFirst (frames : List (List Byte)) (d : List (List Byte) × Block) : List (List Byte) × Block :=
  (frames ++ d.1, d.2)

@[simp] theorem deliverFirst_nil (d : List (List Byte) × Block) : deliverFirst [] d = d := rfl
@[simp] theorem deliverFirst_fst (frames : List (List Byte)) (d : List (List Byte) × Block) :
    (deliverFirst frames d).1 = frames ++ d.1 := rfl
@[simp] theorem deliverFirst_snd (frames : List (List Byte)) (d : List (List Byte) × Block) :
    (deliverFirst frames d).2 = d.2 := rfl

theorem deliverFirst_deliverFirst (fs gs : List (List Byte)) (d : List (List Byte) × Block) :
    deliverFirst fs (deliverFirst gs d) = deliverFirst (fs ++ gs) d := by
  simp only [deliverFirst, List.append_assoc]

variable {p : Params}

theorem drainLoop_of_ready {b : Block} (h : (b.scan p.wireOrder).ready = true) (n : Nat) :
    drainLoop p (n + 1) b =
      deliverFirst [(b.scan p.wireOrder).heldFrame] (drainLoop p n (b.scan p.wireOrder).popFrame) := by
  rw [drainLoop, if_pos h]
  rfl

theorem drainLoop_of_not_ready {b : Block} (h : (b.scan p.wireOrder).ready = false) (n : Nat) :
    drainLoop p (n + 1) b = ([], b.scan p.wireOrder) := by
  rw [drainLoop, h, if_neg Bool.false_ne_true]

/-- More rounds than the buffer has bytes are enough: further ones change nothing (log 17). -/
theorem drainLoop_rounds {m n : Nat} {b : Block} (hs : b.ReadySound p.wireOrder) (hm : b.q.length < m)
    (hn : b.q.length < n) : drainLoop p m b = drainLoop p n b := by
  induction m generalizing n b with
  | zero => omega
  | succ m ih =>
    obtain ⟨n, rfl⟩ : ∃ k, n = k + 1 := ⟨n - 1, by omega⟩
    cases h : (b.scan p.wireOrder).ready with
    | false => rw [drainLoop_of_not_ready h, drainLoop_of_not_ready h]
    | true =>
      have hlen := Block.scan_popFrame_length hs h
      rw [drainLoop_of_ready h, drainLoop_of_ready h, ih (n := n) (Block.popFrame_readySound _ _) (by omega) (by omega)]

theorem drain_of_not_ready {b : Block} (h : (b.scan p.wireOrder).ready = false) :
    drain p b = ([], b.scan p.wireOrder) := drainLoop_of_not_ready h _

theorem drain_of_ready {b : Block} (hs : b.ReadySound p.wireOrder) (h : (b.scan p.wireOrder).ready = true) :
    drain p b = deliverFirst [(b.scan p.wireOrder).heldFrame] (drain p (b.scan p.wireOrder).popFrame) := by
  rw [drain, drainLoop_of_ready h, drain,
    drainLoop_rounds (Block.popFrame_readySound _ _) (Block.scan_popFrame_length hs h) (Nat.lt_succ_self _)]

/-- Induction along a drain: over the SCAN that ends it, and over a frame read and released before the rest. -/
theorem drain_induction {motive : (b : Block) → b.ReadySound p.wireOrder → Prop}
    (stop : ∀ (b : Block) (hs : b.ReadySound p.wireOrder), (b.scan p.wireOrder).ready = false → motive b hs)
    (frame : ∀ (b : Block) (hs : b.ReadySound p.wireOrder), (b.scan p.wireOrder).ready = true →
      motive (b.scan p.wireOrder).popFrame (Block.popFrame_readySound _ _) → motive b hs)
    (b : Block) (hs : b.ReadySound p.wireOrder) : motive b hs := by
  induction hn : b.q.length using Nat.strongRecOn generalizing b with
  | ind n ih =>
    cases h : (b.scan p.wireOrder).ready with
    | false => exact stop b hs h
    | true => exact frame b hs h (ih _ (hn ▸ Block.scan_popFrame_length hs h) _ _ rfl)

/-- A drain ends without a held frame, in a wait for input. -/
theorem drain_waits {b : Block} (hs : b.ReadySound p.wireOrder) :
    (drain p b).2.ready = false ∧ ∃ k, k ≠ .none ∧ waitsAt (drain p b).2.q k := by
  induction b, hs using drain_induction with
  | stop b hb h =>
    rw [drain_of_not_ready h]
    refine ⟨h, ?_⟩
    rcases b.scan_cases p.wireOrder with ⟨hready, e⟩ | ⟨-, k, hk, hwaits, e⟩ | ⟨-, -, e⟩
    · simp [e, hready] at h
    · exact ⟨k, hk, by rwa [e, Block.endNeedMore_q]⟩
    · simp [e] at h
  | frame b hb h ih => rwa [drain_of_ready hb h, deliverFirst_snd]

theorem drain_errOverflow {b : Block} (hs : b.ReadySound p.wireOrder) : (drain p b).2.errOverflow = b.errOverflow := by
  induction b, hs using drain_induction with
  | stop b hb h => simp [drain_of_not_ready h]
  | frame b hb h ih => simpa [drain_of_ready hb h] using ih

/-- The first frame of a drain is read and released whatever is pushed behind it. -/
theorem drain_accept_of_ready {b : Block} (hs : b.ReadySound p.wireOrder) (h : (b.scan p.wireOrder).ready = true)
    (bytes : List Byte) :
    drain p (b.accept bytes) =
      deliverFirst [(b.scan p.wireOrder).heldFrame] (drain p ((b.scan p.wireOrder).popFrame.accept bytes)) := by
  have hscan := Block.accept_scan_of_ready h bytes
  obtain ⟨hframe, hpop⟩ := Block.accept_heldFrame (hs.scan h) h bytes
  rw [drain_of_ready (hs.accept bytes) (by rwa [hscan, Block.accept_ready]), hscan, hframe, hpop]

/-- A drain begins with a SCAN, and depends on nothing else. -/
theorem drain_congr {b c : Block} (hb : b.ReadySound p.wireOrder) (hc : c.ReadySound p.wireOrder)
    (h : b.scan p.wireOrder = c.scan p.wireOrder) : drain p b = drain p c := by
  cases hready : (b.scan p.wireOrder).ready with
  | false => rw [drain_of_not_ready hready, drain_of_not_ready (h ▸ hready), h]
  | true => rw [drain_of_ready hb hready, drain_of_ready hc (h ▸ hready), h]

theorem Block.not_ready_of_scan {o : WireOrder} {b : Block} (h : (b.scan o).ready = false) : b.ready = false := by
  cases hready : b.ready with
  | false => rfl
  | true => simp [b.scan_of_ready, hready] at h

/-- A drain before further PUSHes may be left out: the frames are the same, and so is the block that is left (R135). -/
theorem drain_accept {b : Block} (hs : b.ReadySound p.wireOrder) (bytes : List Byte) :
    drain p (b.accept bytes) = deliverFirst (drain p b).1 (drain p ((drain p b).2.accept bytes)) := by
  induction b, hs using drain_induction with
  | stop b hb h =>
    rw [drain_of_not_ready h, deliverFirst_nil]
    exact drain_congr (hb.accept bytes) (hb.scan.accept bytes) (Block.scan_accept_scan h bytes).symm
  | frame b hb h ih =>
    rw [drain_accept_of_ready hb h, ih, drain_of_ready hb h, deliverFirst_deliverFirst, deliverFirst_fst,
      deliverFirst_snd]

/-- NEED_MORE and STAGE, which accepted PUSHes clear, do not bear on a drain. -/
theorem drain_accept_nil {b : Block} (hs : b.ReadySound p.wireOrder) : drain p (b.accept []) = drain p b := by
  induction b, hs using drain_induction with
  | stop b hb h =>
    exact drain_congr (hb.accept []) hb (b.accept_nil_scan _ (Block.not_ready_of_scan h))
  | frame b hb h ih => rw [drain_accept_of_ready hb h, ih, drain_of_ready hb h]

/-! ### Batches of PUSHes (R135) -/

theorem Block.pushAll_cons (p : Params) (b : Block) (x : Byte) (xs : List Byte) :
    b.pushAll p (x :: xs) = (b.pushByte p x).pushAll p xs := rfl

/-- ERR_OVERFLOW is sticky under PUSHes (R25). -/
theorem Block.pushAll_errOverflow {b : Block} (h : b.errOverflow = true) (bytes : List Byte) :
    (b.pushAll p bytes).errOverflow = true := by
  induction bytes generalizing b with
  | nil => exact h
  | cons x xs ih =>
    rw [Block.pushAll_cons]
    apply ih
    rcases b.pushByte_cases p x with ⟨-, e⟩ | ⟨-, e⟩ <;> simp [e, h]

/-- A batch is accepted whole, or one of its bytes overflows the buffer. -/
theorem Block.pushAll_cases (p : Params) (b : Block) (bytes : List Byte) :
    (b.pushAll p bytes).accept [] = b.accept bytes ∨
      ((b.pushAll p bytes).errOverflow = true ∧ p.inbufCap < b.q.length + bytes.length) := by
  induction bytes generalizing b with
  | nil => exact .inl rfl
  | cons x xs ih =>
    rw [Block.pushAll_cons, List.length_cons]
    rcases b.pushByte_cases p x with ⟨hfull, e⟩ | ⟨-, e⟩ <;> rw [e]
    · exact .inr ⟨Block.pushAll_errOverflow (by simp) xs, by omega⟩
    · rcases ih (b.accept [x]) with h | ⟨h, hlen⟩
      · exact .inl (h.trans (b.accept_accept [x] xs))
      · refine .inr ⟨h, ?_⟩
        rw [Block.accept_q, List.length_append, List.length_singleton] at hlen
        omega

theorem Block.pushAll_ready (p : Params) (b : Block) (bytes : List Byte) : (b.pushAll p bytes).ready = b.ready := by
  induction bytes generalizing b with
  | nil => rfl
  | cons x xs ih => rw [Block.pushAll_cons, ih, (b.pushByte_keeps p x).1]

variable {b : Block}

/-- A batch that is accepted is drained as if its bytes stood in the buffer. -/
theorem feedBatch_of_accepted (hready : b.ready = false) {batch : List Byte}
    (h : (b.pushAll p batch).accept [] = b.accept batch) : feedBatch p b batch = drain p (b.accept batch) := by
  rw [feedBatch, ← drain_accept_nil (.of_not_ready ((b.pushAll_ready p batch).trans hready)), h]

theorem feedBatch_of_room (hready : b.ready = false) {batch : List Byte}
    (hroom : b.q.length + batch.length ≤ p.inbufCap) : feedBatch p b batch = drain p (b.accept batch) := by
  rcases b.pushAll_cases p batch with h | ⟨-, hfull⟩
  · exact feedBatch_of_accepted hready h
  · omega

theorem feedBatch_errOverflow (hready : b.ready = false) (batch : List Byte) :
    (feedBatch p b batch).2.errOverflow = (b.pushAll p batch).errOverflow :=
  drain_errOverflow (.of_not_ready ((b.pushAll_ready p batch).trans hready))

theorem feedBatch_ready (hready : b.ready = false) (batch : List Byte) : (feedBatch p b batch).2.ready = false :=
  (drain_waits (.of_not_ready ((b.pushAll_ready p batch).trans hready))).1

theorem feedBatches_cons (p : Params) (b : Block) (batch : List Byte) (batches : List (List Byte)) :
    feedBatches p b (batch :: batches) =
      deliverFirst (feedBatch p b batch).1 (feedBatches p (feedBatch p b batch).2 batches) := rfl

/-- If the last block shows no overflow, no batch overflowed (R25). -/
theorem feedBatches_errOverflow (hready : b.ready = false) {batches : List (List Byte)}
    (h : (feedBatches p b batches).2.errOverflow = false) : b.errOverflow = false := by
  induction batches generalizing b with
  | nil => exact h
  | cons batch batches ih =>
    have hfirst := ih (feedBatch_ready hready batch) h
    rw [feedBatch_errOverflow hready] at hfirst
    cases hb : b.errOverflow with
    | false => rfl
    | true => simp [Block.pushAll_errOverflow hb] at hfirst

/-- A stream that arrives in batches, none of them overflowing, is drained as if it stood in the buffer. -/
theorem feedBatches_eq_drain (hready : b.ready = false) {batches : List (List Byte)} (hne : batches ≠ [])
    (h : (feedBatches p b batches).2.errOverflow = false) :
    feedBatches p b batches = drain p (b.accept batches.flatten) := by
  induction batches generalizing b with
  | nil => exact absurd rfl hne
  | cons batch batches ih =>
    have hready' := feedBatch_ready (p := p) hready batch
    have haccepted : feedBatch p b batch = drain p (b.accept batch) := by
      have hno := feedBatches_errOverflow hready' h
      rw [feedBatch_errOverflow hready] at hno
      rcases b.pushAll_cases p batch with hb | ⟨hover, -⟩
      · exact feedBatch_of_accepted hready hb
      · simp [hover] at hno
    rw [feedBatches_cons, List.flatten_cons]
    cases batches with
    | nil => rw [haccepted, List.flatten_nil, List.append_nil, feedBatches, deliverFirst, List.append_nil]
    | cons next batches =>
      rw [ih hready' (List.cons_ne_nil _ _) h, haccepted, ← b.accept_accept,
        drain_accept (.of_not_ready (b := b.accept batch) hready)]

/-! ### A corrupted frame between two valid ones (R136) -/

/-- A scan passes over bytes of which every preamble starts a candidate that fails. -/
theorem scanBytes_falseCandidates {o : WireOrder} {x r : List Byte}
    (h : ∀ n < x.length, byteAt x n = preamble → examine o ((x ++ r).drop n) = .mismatch) :
    scanBytes o (x ++ r) = (scanBytes o r).afterMismatches (x.count preamble) := by
  induction x with
  | nil => rfl
  | cons y ys ih =>
    have hrest := ih fun n hn hbyte => h (n + 1) (Nat.succ_lt_succ hn) hbyte
    by_cases hy : y = preamble
    · subst hy
      have hexamine : examine o (preamble :: (ys ++ r)) = .mismatch := h 0 (Nat.zero_lt_succ _) rfl
      rw [List.cons_append, scanBytes_mismatch hexamine, hrest, List.count_cons_self, ScanResult.afterMismatch_eq,
        ScanResult.afterMismatches_afterMismatches]
    · rw [List.cons_append, scanBytes_skip o hy, hrest, List.count_cons_of_ne hy]

/-- The block after a SCAN that counts `n` mismatches and holds a frame, and a POP that leaves `q`. -/
def Block.afterFrame (b : Block) (n : Nat) (q : List Byte) : Block :=
  { b.countMismatches n with q := q, ready := false, needMore := false, stage := .none, frameCnt := b.frameCnt + 1 }

@[simp] theorem Block.afterFrame_q (b : Block) (n : Nat) (q : List Byte) : (b.afterFrame n q).q = q := rfl
@[simp] theorem Block.afterFrame_frameCnt (b : Block) (n : Nat) (q : List Byte) :
    (b.afterFrame n q).frameCnt = b.frameCnt + 1 := rfl
@[simp] theorem Block.afterFrame_crcErrCnt (b : Block) (n : Nat) (q : List Byte) :
    (b.afterFrame n q).crcErrCnt = b.crcErrCnt + BitVec.ofNat 32 n := rfl

/-- A drain passes over false candidates, delivers the frame behind them and goes on with the bytes behind it. -/
theorem drain_frame {x f r : List Byte} (hready : b.ready = false) (hq : b.q = x ++ (f ++ r))
    (hx : ∀ n < x.length, byteAt x n = preamble → examine p.wireOrder ((x ++ (f ++ r)).drop n) = .mismatch)
    (hf : HeldFrame p.wireOrder f) (hlen : f.length = 6 + frameLen f) :
    drain p b = deliverFirst [f] (drain p (b.afterFrame (x.count preamble) r)) := by
  have hscan : b.scan p.wireOrder = (b.countMismatches (x.count preamble)).endFrameReady (f ++ r) := by
    rw [Block.scan_of_not_ready _ hready, hq, scanBytes_falseCandidates hx, scanBytes_heldFrame (hf.append r),
      Block.applyScan_afterMismatches, Block.applyScan, Block.countMismatches_zero]
  have hbytes : frameBytes (f ++ r) = f.length := by
    rw [frameBytes_eq, frameLen_append (by omega), hlen]
  have hpop : (b.scan p.wireOrder).popFrame = b.afterFrame (x.count preamble) r := by
    rw [hscan, Block.popFrame_of_ready rfl, Block.endFrameReady_q, hbytes, List.drop_left]
    rfl
  rw [drain_of_ready (.of_not_ready hready) (by rw [hscan, Block.endFrameReady_ready]), hpop, hscan, Block.heldFrame,
    Block.endFrameReady_q, hbytes, List.take_left]

theorem drain_empty (hready : b.ready = false) (hq : b.q = []) :
    drain p b = ([], b.endNeedMore [] .seekPreamble) := by
  have hscan : b.scan p.wireOrder = b.endNeedMore [] .seekPreamble := by
    rw [Block.scan_of_not_ready _ hready, hq, scanBytes_nil, Block.applyScan, Block.countMismatches_zero]
  rw [drain_of_not_ready (by rw [hscan, Block.endNeedMore_ready, hready]), hscan]

end Sys2Proof.Machine

namespace Sys2Proof.Proofs

open Sys2Proof.Machine

/-- Settles O54: both splits are the drain of the one stream. -/
theorem batchSplitDoesNotMatter : Obligations.BatchSplitDoesNotMatter := by
  intro p b batches batches' hready _ hne hne' hflat hover hover'
  rw [feedBatches_eq_drain hready hne hover, feedBatches_eq_drain hready hne' hover', hflat]

/-- Settles O55: a drain of three rounds, whose second SCAN passes over the corrupted frame. -/
theorem resyncAfterCorruptedFrame : Obligations.ResyncAfterCorruptedFrame := by
  intro p b f1 x f3 hready hq hroom h1 hlen1 h3 hlen3 hhead hlen hbad hfalse
  have hcandidates : ∀ n < x.length, byteAt x n = preamble → examine p.wireOrder ((x ++ f3).drop n) = .mismatch := by
    intro n hn hbyte
    rcases Nat.eq_zero_or_pos n with rfl | hpos
    · rw [List.drop_zero, examine_append (by omega), examine_whole (by omega), hbad, if_neg Bool.false_ne_true]
    · exact hfalse n hpos hn hbyte
  have hcount : x.count preamble = 1 + (x.drop 1).count preamble := by
    obtain ⟨rest, rfl⟩ := List.head?_eq_some_iff.mp (show x.head? = some preamble from hhead)
    rw [List.count_cons_self, List.drop_succ_cons, List.drop_zero, Nat.add_comm]
  have hq1 : (b.accept (f1 ++ x ++ f3)).q = [] ++ (f1 ++ (x ++ f3)) := by
    rw [Block.accept_q, hq, List.append_assoc]
  have hdrain : feedBatch p b (f1 ++ x ++ f3) =
      deliverFirst [f1] (deliverFirst [f3] ([], (((b.accept (f1 ++ x ++ f3)).afterFrame 0 (x ++ f3)).afterFrame
        (x.count preamble) []).endNeedMore [] .seekPreamble)) := by
    rw [feedBatch_of_room hready (by simpa [hq, Nat.add_assoc] using hroom),
      drain_frame (b := b.accept (f1 ++ x ++ f3)) hready hq1 (by simp) h1 hlen1,
      drain_frame (r := []) rfl (by rw [Block.afterFrame_q, List.append_nil]) (by simpa using hcandidates) h3 hlen3,
      drain_empty rfl rfl]
    rfl
  rw [hdrain]
  refine ⟨rfl, rfl, ?_, ?_⟩
  · rw [deliverFirst_snd, deliverFirst_snd, Block.endNeedMore_frameCnt, Block.afterFrame_frameCnt,
      Block.afterFrame_frameCnt, BitVec.add_assoc]
    rfl
  · rw [deliverFirst_snd, deliverFirst_snd, Block.endNeedMore_crcErrCnt, Block.afterFrame_crcErrCnt,
      Block.afterFrame_crcErrCnt, BitVec.add_zero, hcount, BitVec.ofNat_add, ← BitVec.add_assoc]
    rfl

end Sys2Proof.Proofs
end

section
/-! PROOFS. The host loop that pushes while the buffer has room (70_reset_and_hazards.md R233, R236). -/

namespace Sys2Proof.Machine

variable {p : Params} {b : Block}

/-- A block that waits has room up to a longest frame (R236). -/
theorem waitsAt_length {q : List Byte} {k : Stage} (hk : k ≠ .none) (h : waitsAt q k) : q.length < 1029 := by
  have hlen := frameLen_le q
  cases k with
  | none => exact absurd rfl hk
  | seekPreamble =>
    obtain rfl : q = [] := h
    exact Nat.zero_lt_succ _
  | readLength =>
    obtain ⟨-, hshort⟩ := h
    omega
  | readPayload =>
    obtain ⟨-, -, hshort⟩ := h
    omega
  | readCrc =>
    obtain ⟨-, -, hshort⟩ := h
    omega

/-- The guarded PUSHes of a round, as PUSHes that are all accepted. -/
theorem drain_pushWhileRoom (hs : b.ReadySound p.wireOrder) (bytes : List Byte) :
    ∃ n, n = min bytes.length (p.inbufCap - b.q.length) ∧ (b.pushWhileRoom p bytes).2 = bytes.drop n ∧
      drain p (b.pushWhileRoom p bytes).1 = drain p (b.accept (bytes.take n)) := by
  obtain ⟨n, hn, hrest, hblock⟩ := b.pushWhileRoom_spec p bytes
  refine ⟨n, hn, hrest, ?_⟩
  rw [hblock]
  split
  · rename_i h0
    rw [h0, List.take_zero, drain_accept_nil hs]
  · rfl

/-- What the host loop from `b` has done when `stream` is what has arrived: the bytes that do not wait are pushed, and
frames and block are those of one drain of them. -/
def HostLoop.HasDrained (p : Params) (b : Block) (stream : List Byte) (h : HostLoop) : Prop :=
  ∃ pushed, stream = pushed ++ h.waiting ∧ (h.delivered, h.block) = drain p (b.accept pushed)

/-- The first round drains the bytes it pushes. -/
theorem HostLoop.round_first (hs : b.ReadySound p.wireOrder) (arrived : List Byte) :
    (HostLoop.round p ⟨[], [], b⟩ arrived).HasDrained p b arrived := by
  obtain ⟨n, -, hrest, hdrain⟩ := drain_pushWhileRoom hs arrived
  refine ⟨arrived.take n, ?_, ?_⟩
  · exact (List.take_append_drop n arrived).symm.trans (congrArg _ hrest.symm)
  · exact hdrain

section

variable {stream : List Byte} {h : HostLoop} (hs : b.ReadySound p.wireOrder) (hd : h.HasDrained p b stream)
include hs hd

/-- After a drain no frame is held, and the buffer is shorter than a longest frame (R236). -/
theorem HostLoop.HasDrained.waits : h.block.ready = false ∧ h.block.q.length < 1029 := by
  obtain ⟨pushed, -, hdrained⟩ := hd
  obtain ⟨hready, k, hk, hwaits⟩ := drain_waits (hs.accept pushed)
  rw [← hdrained] at hready hwaits
  exact ⟨hready, waitsAt_length hk hwaits⟩

/-- A further round goes on with the drain, and only the bytes that do not fit still wait. -/
theorem HostLoop.HasDrained.round (arrived : List Byte) :
    (h.round p arrived).HasDrained p b (stream ++ arrived) ∧
      (h.round p arrived).waiting.length = (h.waiting ++ arrived).length - (p.inbufCap - h.block.q.length) := by
  have hready := (hd.waits hs).1
  obtain ⟨pushed, rfl, hdrained⟩ := hd
  obtain ⟨n, hn, hrest, hdrain⟩ := drain_pushWhileRoom (p := p) (.of_not_ready hready) (h.waiting ++ arrived)
  have hwaiting : (h.round p arrived).waiting = (h.waiting ++ arrived).drop n := hrest
  refine ⟨⟨pushed ++ (h.waiting ++ arrived).take n, ?_, ?_⟩, ?_⟩
  · rw [hwaiting, List.append_assoc, List.append_assoc, List.take_append_drop]
  · rw [← b.accept_accept, drain_accept (hs.accept pushed), ← hdrained, ← hdrain]
    rfl
  · rw [hwaiting, List.length_drop]
    omega

theorem HostLoop.HasDrained.rounds (arrivals : List (List Byte)) :
    (arrivals.foldl (HostLoop.round p) h).HasDrained p b (stream ++ arrivals.flatten) := by
  induction arrivals generalizing h stream with
  | nil => rwa [List.foldl_nil, List.flatten_nil, List.append_nil]
  | cons arrived arrivals ih =>
    rw [List.foldl_cons, List.flatten_cons, ← List.append_assoc]
    exact ih (hd.round hs arrived).1

/-- Every round pushes a byte while one waits, so as many rounds as bytes wait are enough (log 17). -/
theorem HostLoop.HasDrained.settle (hcap : 1029 ≤ p.inbufCap) {n : Nat} (hn : h.waiting.length ≤ n) :
    (h.settle p n).waiting = [] ∧ (h.settle p n).HasDrained p b stream := by
  induction n generalizing h with
  | zero => exact ⟨List.eq_nil_of_length_eq_zero (Nat.le_zero.mp hn), hd⟩
  | succ n ih =>
    rw [HostLoop.settle]
    split
    · exact ⟨‹_›, hd⟩
    · have hroom := (hd.waits hs).2
      obtain ⟨hd', hlen⟩ := hd.round hs []
      rw [List.append_nil] at hd' hlen
      exact ih hd' (by omega)

end

end Sys2Proof.Machine

namespace Sys2Proof.Proofs

open Sys2Proof.Machine

/-- Settles O58: after the first round the loop has drained the bytes it pushed, and it ends when it has pushed all. -/
theorem hostLoopLosesNothing : Obligations.HostLoopLosesNothing := by
  intro p b arrivals hwf hinv hne r
  have hcap : 1029 ≤ p.inbufCap := by
    simp only [Params.wf, Bool.and_eq_true, decide_eq_true_eq] at hwf
    exact hwf.1
  have hs : b.ReadySound p.wireOrder := hinv.held
  have hs' : ({ b with q := b.q ++ arrivals.flatten } : Block).ReadySound p.wireOrder := hs.accept arrivals.flatten
  have hrounds : (arrivals.foldl (HostLoop.round p) ⟨[], [], b⟩).HasDrained p b arrivals.flatten := by
    obtain ⟨arrived, rest, rfl⟩ := List.exists_cons_of_ne_nil hne
    exact (HostLoop.round_first hs arrived).rounds hs rest
  obtain ⟨hwaiting, pushed, hpushed, hdrained⟩ := hrounds.settle hs hcap le_rfl
  rw [hwaiting, List.append_nil] at hpushed
  have hdrain : (r.delivered, r.block) = drain p (b.accept arrivals.flatten) := hpushed ▸ hdrained
  refine ⟨hwaiting, ?_, ?_⟩
  · exact (congrArg (·.2.errOverflow) hdrain).trans (drain_errOverflow (hs.accept _))
  · rw [hdrain, ← drain_accept_nil hs']
    simp only [Block.accept, List.append_nil]

end Sys2Proof.Proofs
end

section
/-! PROOFS. The control commands: their words and the whole state after each (42_control.md R170 to R172, R231). -/

namespace Sys2Proof.Machine

/-- A reset event, whatever its source, does what SOFT_RESET does: `step_reset` shows the state that both reach (R231). -/
theorem step_reset_eq_exec_softReset {s : State} {src : ResetSource} {rest : List HostEvent}
    (h : s.pending = .reset src :: rest) : step s = exec .softReset { s with pending := rest } :=
  (step_reset h rfl).trans (exec_eq .softReset { s with pending := rest }).symm

end Sys2Proof.Machine

namespace Sys2Proof.Proofs

open Sys2Proof.Machine

/-- Settles O19: its meaning is the state itself, and 0x00000000 is its only encoding. -/
theorem nopChangesNothing : Obligations.NopChangesNothing :=
  ⟨exec_eq .nop, fun _ => decode_eq_command_iff_eq_encode⟩

/-- Settles O32: its word is the only encoding, and its meaning is `Block.clearErrors`, which writes the error bits alone. -/
theorem clearErrClearsErrorBits : Obligations.ClearErrClearsErrorBits := fun s =>
  ⟨fun _ => decode_eq_command_iff_eq_encode, exec_eq .clearErr s⟩

/-- Settles O33: its word is the only encoding, its meaning is `Block.reset`, and a reset event reaches the same state. -/
theorem softResetIsPowerOn : Obligations.SoftResetIsPowerOn := fun s =>
  ⟨fun _ => decode_eq_command_iff_eq_encode, exec_eq .softReset s, fun _ _ => step_reset_eq_exec_softReset⟩

end Sys2Proof.Proofs
end

section
/-! PROOFS. The error bits one word can raise (60_exceptions.md R206): a word without an error bit set before it raises the bit
of its own condition only. -/

namespace Sys2Proof.Machine

variable {p : Params} {b : Block} {i : Instr}

theorem Block.after_errOverflow_raised (hb : b.errOverflow = false) (h : (b.after p i).errOverflow = true) :
    ∃ x, i = .push x := by
  rcases Block.after_errOverflow_sets h with hset | ⟨hpush, -⟩
  · exact absurd (hb.symm.trans hset) Bool.false_ne_true
  · exact hpush

theorem Block.after_errNoFrame_raised (hb : b.errNoFrame = false) (h : (b.after p i).errNoFrame = true) : i = .pop := by
  rcases Block.after_errNoFrame_sets h with hset | ⟨hpop, -⟩
  · exact absurd (hb.symm.trans hset) Bool.false_ne_true
  · exact hpop

theorem Block.after_errIllegal_clear (hb : b.errIllegal = false) : (b.after p i).errIllegal = false :=
  Bool.eq_false_of_not_eq_true fun h => absurd (hb.symm.trans (Block.after_errIllegal_sets h)) Bool.false_ne_true

/-- Of the commands, only SCAN counts a frame. -/
theorem Block.after_frameCnt_changes (hreset : i ≠ .softReset) (h : (b.after p i).frameCnt ≠ b.frameCnt) : i = .scan :=
  Decidable.byContradiction fun hscan => h (b.after_counters p hreset hscan).1

end Sys2Proof.Machine

namespace Sys2Proof.Proofs

open Sys2Proof.Machine

/-- Settles O46: an ILLEGAL word raises ERR_ILLEGAL alone. Of the commands PUSH alone raises ERR_OVERFLOW and POP alone
ERR_NO_FRAME, none raises ERR_ILLEGAL, and the one that counts a frame is SCAN. -/
theorem atMostOneErrorPerWord : Obligations.AtMostOneErrorPerWord := by
  intro w s hoverflow hillegal hnoFrame
  cases hd : decode w with
  | illegal r =>
    refine ⟨_, performWord_illegal hd s, ?_⟩
    simp [State.withBlock, hoverflow, hnoFrame]
  | command i =>
    refine ⟨_, (performWord_command hd s).trans (exec_eq i s), ?_⟩
    simp only [State.withBlock, Block.after_errIllegal_clear hillegal]
    refine ⟨by simp, fun ⟨ho, hn⟩ => ?_, by simp, by simp, fun hcount hreset => ⟨?_, trivial, ?_⟩⟩
    · obtain ⟨x, rfl⟩ := Block.after_errOverflow_raised hoverflow ho
      exact Instr.noConfusion (Block.after_errNoFrame_raised hnoFrame hn)
    all_goals
      obtain rfl := Block.after_frameCnt_changes (fun h => hreset (h ▸ rfl)) hcount
      simp [Block.after, hoverflow, hnoFrame]

end Sys2Proof.Proofs
end

section
/-! PROOFS. What the registers read after reset and without a held frame (70_reset_and_hazards.md R230, R234). -/

namespace Sys2Proof.Machine

/-- A register is read at its own offset only (R31). -/
theorem offset_of_regAt {off : Nat} {r : Reg} (h : regAt off = some r) : r.offset = off := by
  unfold regAt at h
  split at h
  iterate 9
    obtain rfl := Option.some.inj h
    rfl
  split at h
  · obtain rfl := Option.some.inj h
    rw [Reg.offset]
    omega
  · exact nomatch h

/-- After reset every register but PARAMS reads 0 (R230). -/
theorem readReg_reset (p : Params) {r : Reg} (h : r ≠ .params) : readReg p Block.reset r = 0 := by
  cases r with
  | params => exact absurd rfl h
  | status => exact statusWord_reset
  | frameWin i => exact frameWinWord_outside fun hready => Bool.false_ne_true hready.1
  | cmd | fill | frameInfo | frameCrc | crcValue | crcErrCnt | frameCnt => rfl

/-- Without a held frame the frame's registers read 0 (R36, R37, R41). -/
theorem busRead_frameRegisters_of_not_ready (p : Params) {b : Block} (h : b.ready = false) {off : Nat}
    (hoff : off = 0x0010 ∨ off = 0x0014 ∨ (0x1000 ≤ off ∧ off ≤ 0x2010)) : busRead p b off = 0 := by
  rcases hoff with rfl | rfl | hwin
  · exact frameInfoWord_of_not_ready h
  · exact frameCrcWord_of_not_ready h
  · rw [busRead_window p b hwin, frameWinWord_outside (by simp [h]), ite_self]

end Sys2Proof.Machine

namespace Sys2Proof.Proofs

open Sys2Proof.Machine

/-- Settles O34, register by register; an offset without a register reads 0 in every state. -/
theorem resetLeavesZeros : Obligations.ResetLeavesZeros := by
  refine fun p => ⟨rfl, fun off hoff => ?_, fun _ => rfl⟩
  rw [busRead]
  split
  · rename_i r hr
    exact readReg_reset p fun hparams => hoff (offset_of_regAt (hparams ▸ hr)).symm
  · rfl

/-- Settles O52: each of the three commands leaves no held frame. -/
theorem frameRegistersZeroAfterRelease : Obligations.FrameRegistersZeroAfterRelease := by
  intro s i hi
  have hready : (s.block.after s.params i).ready = false := by
    rcases hi with ⟨rfl, -⟩ | rfl | rfl
    · exact s.block.popFrame_ready
    · exact s.block.discardInput_ready
    · rfl
  exact ⟨_, exec_eq i s, hready, fun off hoff => busRead_frameRegisters_of_not_ready _ hready hoff⟩

end Sys2Proof.Proofs
end

section
/-! PROOFS. Lists of commands as one function on the block, and the PUSHes that fit (70_reset_and_hazards.md R236). -/

namespace Sys2Proof.Machine

variable {p : Params} {b : Block}

/-- The block after a list of commands. -/
def Block.afterAll (p : Params) (b : Block) (is : List Instr) : Block := is.foldl (Block.after p) b

@[simp] theorem Block.afterAll_nil (p : Params) (b : Block) : b.afterAll p [] = b := rfl

@[simp] theorem Block.afterAll_cons (p : Params) (b : Block) (i : Instr) (is : List Instr) :
    b.afterAll p (i :: is) = (b.after p i).afterAll p is := rfl

theorem Block.afterAll_append (p : Params) (b : Block) (is js : List Instr) :
    b.afterAll p (is ++ js) = (b.afterAll p is).afterAll p js := List.foldl_append

/-- `execAll` is `Block.afterAll` on the block and leaves the rest of the machine. -/
theorem execAll_eq (is : List Instr) (s : State) :
    execAll is s = .next (s.withBlock (s.block.afterAll s.params is)) := by
  induction is generalizing s with
  | nil => rfl
  | cons i is ih =>
    rw [execAll_cons (exec_eq i s), ih]
    rfl

theorem Block.Inv.afterAll (h : b.Inv p) (is : List Instr) : (b.afterAll p is).Inv p := by
  induction is generalizing b with
  | nil => exact h
  | cons i is ih => exact ih (h.after i)

theorem Block.afterAll_pushes (p : Params) (b : Block) (bytes : List Byte) :
    b.afterAll p (bytes.map .push) = b.pushAll p bytes := List.foldl_map

/-- PUSHes that fit go to the tail of the buffer, and none is rejected (R120). -/
theorem Block.pushAll_room {bytes : List Byte} (h : b.q.length + bytes.length ≤ p.inbufCap) :
    (b.pushAll p bytes).q = b.q ++ bytes ∧ (b.pushAll p bytes).errOverflow = b.errOverflow := by
  rcases b.pushAll_cases p bytes with e | ⟨-, hfull⟩
  · exact ⟨(List.append_nil _).symm.trans (congrArg Block.q e), (congrArg Block.errOverflow e :)⟩
  · omega

/-- R6 leaves room for a longest frame. -/
theorem inbufCap_ge (h : p.wf = true) : 1029 ≤ p.inbufCap := by
  simp only [Params.wf, Bool.and_eq_true, decide_eq_true_eq] at h
  exact h.1

/-- What a waiting block holds, by the stage at which it waits (R24, R236). -/
theorem waitsAt_cases {q : List Byte} {k : Stage} (hk : k ≠ .none) (h : waitsAt q k) :
    (k = .seekPreamble ∧ q = []) ∨ (k = .readLength ∧ q.length < 3) ∨
      ((k = .readPayload ∨ k = .readCrc) ∧ q.length < 6 + frameLen q ∧ 6 + frameLen q ≤ 1029) := by
  have hlen := frameLen_le q
  cases k with
  | none => exact absurd rfl hk
  | seekPreamble => exact .inl ⟨rfl, h⟩
  | readLength =>
    obtain ⟨-, hshort⟩ := h
    exact .inr (.inl ⟨rfl, hshort⟩)
  | readPayload =>
    obtain ⟨-, -, hshort⟩ := h
    exact .inr (.inr ⟨.inl rfl, by omega, by omega⟩)
  | readCrc =>
    obtain ⟨-, -, hshort⟩ := h
    exact .inr (.inr ⟨.inr rfl, hshort, by omega⟩)

end Sys2Proof.Machine

namespace Sys2Proof.Proofs

open Sys2Proof.Machine

/-- Settles O44: the stage says how short the buffer is, and INBUF_CAP is at least 1029. -/
theorem roomAfterNeedMore : Obligations.RoomAfterNeedMore := by
  intro s hinv hneed
  have hcap := inbufCap_ge hinv.paramsOk
  refine ⟨waitsAt_cases (hinv.blockOk.stageIff.mp hneed) hinv.blockOk.waits, hcap, fun bytes hroom => ?_⟩
  refine ⟨_, execAll_eq (bytes.map .push) s, ?_⟩
  rw [State.withBlock_block, Block.afterAll_pushes]
  exact Block.pushAll_room (hroom.trans hcap)

end Sys2Proof.Proofs
end

section
/-! PROOFS. A round of the host loop as the commands it issues (70_reset_and_hazards.md R233, R235). -/

namespace Sys2Proof.Machine

variable {p : Params} {b : Block}

/-! ### The guarded PUSHes -/

/-- The PUSHes of a round are as many as there is room for, and the host keeps the other bytes (R233, R237). -/
theorem Block.pushWhileRoom_eq (p : Params) (b : Block) (bytes : List Byte) :
    b.pushWhileRoom p bytes =
      (b.pushAll p (bytes.take (min bytes.length (p.inbufCap - b.q.length))),
        bytes.drop (min bytes.length (p.inbufCap - b.q.length))) := by
  induction bytes generalizing b with
  | nil => rfl
  | cons x xs ih =>
    rw [Block.pushWhileRoom]
    split
    · rename_i hroom
      have hq : (b.pushByte p x).q.length = b.q.length + 1 := by
        rw [Block.pushByte_room hroom, List.length_append, List.length_singleton]
      have hn : min (x :: xs).length (p.inbufCap - b.q.length) =
          min xs.length (p.inbufCap - (b.pushByte p x).q.length) + 1 := by
        rw [List.length_cons, hq]
        omega
      rw [ih, hn]
      rfl
    · rw [Nat.sub_eq_zero_of_le (by omega), Nat.min_zero]
      rfl

/-! ### The commands of a drain -/

/-- The commands of the inner loop of R233 up to the SCAN behind `k` frames. -/
def scansAndPops (k : Nat) : List Instr := .scan :: (List.replicate k [Instr.pop, Instr.scan]).flatten

@[simp] theorem afterAll_scansAndPops_zero (p : Params) (b : Block) :
    b.afterAll p (scansAndPops 0) = b.scan p.wireOrder := rfl

theorem afterAll_scansAndPops_succ (p : Params) (b : Block) (k : Nat) :
    b.afterAll p (scansAndPops (k + 1)) = (b.scan p.wireOrder).popFrame.afterAll p (scansAndPops k) := rfl

/-- A drain is its commands: a SCAN, and POP and SCAN for each frame it reads. -/
theorem drain_eq_afterAll (hs : b.ReadySound p.wireOrder) :
    (drain p b).2 = b.afterAll p (scansAndPops (drain p b).1.length) := by
  induction b, hs using drain_induction with
  | stop b hb h =>
    rw [drain_of_not_ready h]
    rfl
  | frame b hb h ih =>
    rw [drain_of_ready hb h]
    exact ih

/-- Frame number `k` of a drain is the one held behind SCAN number `k`. -/
theorem drain_frame_held (hs : b.ReadySound p.wireOrder) {k : Nat} {frame : List Byte}
    (hk : (drain p b).1[k]? = some frame) :
    (b.afterAll p (scansAndPops k)).ready = true ∧ (b.afterAll p (scansAndPops k)).heldFrame = frame := by
  induction b, hs using drain_induction generalizing k with
  | stop b hb h =>
    rw [drain_of_not_ready h] at hk
    exact nomatch hk
  | frame b hb h ih =>
    rw [drain_of_ready hb h] at hk
    cases k with
    | zero => exact ⟨h, Option.some.inj hk⟩
    | succ k => exact ih hk

/-- A drain ends with NEED_MORE set (R233). -/
theorem drain_needMore (hs : b.ReadySound p.wireOrder) : (drain p b).2.needMore = true := by
  induction b, hs using drain_induction with
  | stop b hb h =>
    rw [drain_of_not_ready h]
    rcases b.scan_cases p.wireOrder with ⟨hready, e⟩ | ⟨-, k, -, -, e⟩ | ⟨-, -, e⟩
    · simp [e, hready] at h
    · rw [e, Block.endNeedMore_needMore]
    · simp [e] at h
  | frame b hb h ih => rwa [drain_of_ready hb h, deliverFirst_snd]

/-! ### The frame the host reads -/

/-- FRAME_INFO and FRAME_WIN show the held frame (R36, R41). -/
theorem busRead_heldFrame {o : WireOrder} (p : Params) (h : HeldFrame o b.q) (hready : b.ready = true) :
    b.heldFrame.length = 6 + ((busRead p b 0x0010).extractLsb' 0 10).toNat ∧
      ∀ i, i < b.heldFrame.length → busRead p b (0x1000 + 4 * i) = (byteAt b.heldFrame i).setWidth 32 := by
  have hlen : b.heldFrame.length = 6 + frameLen b.q := by
    rw [Block.heldFrame, frameBytes_eq, List.length_take, Nat.min_eq_left h.whole]
  refine ⟨?_, fun i hi => ?_⟩
  · rw [hlen, busRead_frameInfo, (frameInfoWord_fields hready).1, frameLen]
  · have hbyte : byteAt b.heldFrame i = byteAt b.q i := by
      conv_rhs => rw [← List.take_append_drop (frameBytes b.q) b.q]
      exact (byteAt_append hi _).symm
    have hmax := frameLen_le b.q
    rw [busRead_frameWin p b (by omega), frameWinWord_inside hready (hlen ▸ hi), hbyte]

end Sys2Proof.Machine

namespace Sys2Proof.Proofs

open Sys2Proof.Machine

/-- Settles O57: the guarded PUSHes are PUSHes that fit, the drain behind them is its commands, and the frame held behind
each SCAN is the one delivered. -/
theorem hostRoundRunsItsCommands : Obligations.HostRoundRunsItsCommands := by
  intro s waiting arrived hinv bytes n r upToScan
  have hround : HostLoop.round s.params ⟨[], waiting, s.block⟩ arrived =
      ⟨(drain s.params (s.block.pushAll s.params (bytes.take n))).1, bytes.drop n,
        (drain s.params (s.block.pushAll s.params (bytes.take n))).2⟩ := by
    rw [HostLoop.round, Block.pushWhileRoom_eq]
    rfl
  have hrun (k : Nat) : execAll (upToScan k) s =
      .next (s.withBlock ((s.block.pushAll s.params (bytes.take n)).afterAll s.params (scansAndPops k))) := by
    rw [← Block.afterAll_pushes, ← Block.afterAll_append]
    exact execAll_eq (upToScan k) s
  have hpushed : (s.block.pushAll s.params (bytes.take n)).Inv s.params :=
    s.block.afterAll_pushes s.params _ ▸ hinv.blockOk.afterAll _
  have hroom : s.block.q.length + (bytes.take n).length ≤ s.params.inbufCap := by
    have hfits := hinv.blockOk.fits
    rw [List.length_take]
    omega
  subst r
  rw [hround]
  refine ⟨rfl, ?_, (drain_waits hpushed.held).1, drain_needMore hpushed.held,
    (drain_errOverflow hpushed.held).trans (Block.pushAll_room hroom).2, fun k frame hk => ⟨_, hrun k, ?_⟩⟩
  · rw [hrun, drain_eq_afterAll hpushed.held]
    rfl
  · obtain ⟨hready, rfl⟩ := drain_frame_held hpushed.held hk
    have hheld := (hpushed.afterAll (scansAndPops k)).held hready
    exact ⟨(statusWord_flags _).1.trans hready, busRead_heldFrame _ hheld hready⟩

end Sys2Proof.Proofs
end
